-- ==== Sys2Proof/Word.lean ====
section
/-! DEFINITION. The word types of SLET: a wire byte, a command word, a delay. -/

namespace Sys2Proof

/-- An encoded byte, a channel value or a wire byte (00_scope.md R7, R11). -/
abbrev Byte := BitVec 8

/-- A command word, `CMD_W` = 16 bits (00_scope.md R5, 30_encoding.md R42). -/
abbrev Word := BitVec 16

/-- A delay in time units, `IBD_W` = 14 bits (00_scope.md R5, 10_state.md R24). -/
abbrev Delay := BitVec 14

end Sys2Proof
end

