-- ==== Sys2Proof/Config.lean ====
section
/-! DEFINITION. What an implementation of SLET fixes (00_scope.md R5) and the free values of the model.
A constant declared `opaque` has no body: nothing can be proved of its value. -/

namespace Sys2Proof

/-- The parameters of a SLET instance that the spec leaves to the instance (00_scope.md R5).
They are constant for the life of the instance (R6). -/
structure Params where
  /-- `P_CLK_HZ`, the frequency of `clk` in Hz. R5 does not say whether it is a whole number: a natural number
  here (DESIGN CHOICE, log 30). -/
  clkHz : Nat
  /-- `P_DIV`, `clk` cycles per serial bit. -/
  div : Nat
  /-- `P_UNIT_CYCLES`, `clk` cycles per time unit. -/
  unitCycles : Nat
  /-- `P_TXD_INVERT`, invert the physical `txd` pin. -/
  txdInvert : Bool
deriving DecidableEq, Repr

namespace Config

/-- `P_POD_COUNT`, the number of pod addresses on the bus (R5). -/
def podCount : Nat := 4

/-- `P_BAUD`, bits per second (R5). -/
def baud : Nat := 9600

/-- `IBD_RESET`, the reset value of IBD in time units (R5). -/
def ibdReset : Delay := 40#14

/-- `VALUE_MASK`, the host's mask on a channel value before encoding (R5, 90_conflicts.md C3). -/
def valueMask : Nat := 0xFF

/-- `TICK_DEFAULT`, the host's default update interval in time units (R5). -/
def tickDefault : Nat := 1000

/-- `TICK_FLOOR`, the host's minimum update interval in time units (R5). -/
def tickFloor : Nat := 500

/-- `P_CLK_HZ` of the instance: OPEN in R5, so no value is chosen (log 2). -/
opaque clkHz : Nat

/-- `P_DIV - 1` of the instance: R5 leaves `P_DIV` OPEN, "integer >= 1" (log 2). -/
opaque divLessOne : Nat

/-- `P_UNIT_CYCLES - 1` of the instance: R5 leaves `P_UNIT_CYCLES` OPEN, "integer >= 1" (log 2). -/
opaque unitCyclesLessOne : Nat

/-- The parameters of the instance after reset: the OPEN ones opaque, `P_TXD_INVERT` = false (R5). -/
def params : Params where
  clkHz := clkHz
  div := divLessOne + 1
  unitCycles := unitCyclesLessOne + 1
  txdInvert := false

/-- The free value of the frame register FRM after the n-th reset edge: "`any value`, never read in
`IDLE`" (93_implementation_defined.md I20, 70_reset_and_hazards.md R120; log 6). -/
opaque freeFrm : Nat → BitVec 10

end Config

end Sys2Proof
end

