-- ==== Sys2Proof/Syntax.lean ====
section
/-! DEFINITION. The instructions of SLET, one constructor per row of spec/opcode_table.json
(30_encoding.md R42), the channel selector (R46), and the lines of the command-stream assembly
syntax with its pseudo-instructions (R52, R53). -/

namespace Sys2Proof

/-- The channel selector (30_encoding.md R46). -/
inductive Channel where
  | intensity
  | red
  | green
  | blue
deriving DecidableEq, Repr

/-- The number of a channel: "Intensity=0, Red=1, Green=2, Blue=3" (30_encoding.md R46). -/
def Channel.bits : Channel → BitVec 2
  | .intensity => 0#2
  | .red => 1#2
  | .green => 2#2
  | .blue => 3#2

/-- The four commands. Every operand is a bounded bit field, so every term is well formed: "the 2-bit
IDX field is SLET's form" of making illegal operands unrepresentable (40_encoder.md R68). Ignored bits
are no operand (30_encoding.md R44). -/
inductive Instr where
  /-- SEND: encode and transmit (41_transmitter.md R76). -/
  | send (idx : BitVec 2) (ch : Channel) (val : Byte)
  /-- SENDRAW: transmit an already encoded byte (R77). -/
  | sendraw (eb : Byte)
  /-- SETIBD: set the inter-byte delay (R78). -/
  | setibd (n : Delay)
  /-- RSVD: the reserved opcode (R79). -/
  | rsvd
deriving DecidableEq, Repr

/-- The channel operand of an assembler line: a number or one of I, R, G, B (30_encoding.md R52). -/
inductive ChannelOperand where
  | number (n : Nat)
  | name (c : Channel)
deriving DecidableEq, Repr

/-- A line of the command-stream assembly syntax (30_encoding.md R52), with operands as written, of
any size: the range checks are in WellFormed.lean. -/
inductive AsmLine where
  | send (idx : Nat) (ch : ChannelOperand) (val : Nat)
  | sendraw (eb : Nat)
  | setibd (n : Nat)
  /-- The operand of RSVD is optional, default 0. -/
  | rsvd (bits : Option Nat)
  /-- The pseudo-instruction SENDPOD (R53): brightness and colour are "any non-negative integer". -/
  | sendpod (pod : Nat) (bright : Nat) (color : Nat)
  /-- The pseudo-instruction TICK (R53). -/
  | tick
deriving DecidableEq, Repr

end Sys2Proof
end

