-- ==== Sys2Proof/WellFormed.lean ====
section
/-! DEFINITION. Well-formedness checks: the operand ranges of an assembler line (30_encoding.md R52: "An
operand out of its range is an assembly error; the assembler never truncates"), and the parameters of an
instance (00_scope.md R5). An `Instr` needs no check: its operands are bounded by their types (R68). -/

namespace Sys2Proof

/-- Why an assembler line is refused. -/
inductive AsmError where
  /-- The pod index is not in 0..3. -/
  | indexOutOfRange (n : Nat)
  /-- The channel number is not in 0..3. -/
  | channelOutOfRange (n : Nat)
  /-- The channel value is not in 0..255. -/
  | valueOutOfRange (n : Nat)
  /-- The encoded byte is not in 0..255. -/
  | encodedByteOutOfRange (n : Nat)
  /-- The delay is not in 0..16383. -/
  | delayOutOfRange (n : Nat)
  /-- The operand of RSVD does not fit bits 13:0. -/
  | reservedBitsOutOfRange (n : Nat)
deriving DecidableEq, Repr

/-- A channel operand in range. -/
def ChannelOperand.check : ChannelOperand → Except AsmError Unit
  | .number n => if n < 4 then .ok () else .error (.channelOutOfRange n)
  | .name _ => .ok ()

/-- The check of an assembler line: the first operand out of its range is named (30_encoding.md R52).
SENDPOD's pod is an `idx`; its brightness and colour are masked by the host, never refused (R53). -/
def AsmLine.check : AsmLine → Except AsmError Unit
  | .send idx ch val =>
    if idx < 4 then
      match ch.check with
      | .ok () => if val < 256 then .ok () else .error (.valueOutOfRange val)
      | .error e => .error e
    else .error (.indexOutOfRange idx)
  | .sendraw eb => if eb < 256 then .ok () else .error (.encodedByteOutOfRange eb)
  | .setibd n => if n < 16384 then .ok () else .error (.delayOutOfRange n)
  | .rsvd none => .ok ()
  | .rsvd (some k) => if k < 16384 then .ok () else .error (.reservedBitsOutOfRange k)
  | .sendpod pod _ _ => if pod < 4 then .ok () else .error (.indexOutOfRange pod)
  | .tick => .ok ()

/-- A line the assembler accepts. -/
def AsmLine.wf (l : AsmLine) : Bool :=
  match l.check with
  | .ok () => true
  | .error _ => false

/-- Legal parameters: `P_DIV` and `P_UNIT_CYCLES` are "integer >= 1" (00_scope.md R5). -/
def Params.wf (p : Params) : Bool := decide (1 ≤ p.div) && decide (1 ≤ p.unitCycles)

end Sys2Proof
end

