-- ==== Sys2Proof/Decode.lean ====
section
/-! DEFINITION. Decoding and encoding of command words (30_encoding.md R42 to R47). Decoding a 16-bit word
is total: bits 15:14 choose one of four rows and nothing else is read to choose (R43, R47). A command word
is one parallel word with no byte order (20_memory.md R35). -/

namespace Sys2Proof

/-- OP = `cmd_data[15:14]` (30_encoding.md R42). -/
def cmdOp (c : Word) : BitVec 2 := c.extractLsb' 14 2

/-- IDX = `cmd_data[11:10]` (30_encoding.md R45). -/
def cmdIdx (c : Word) : BitVec 2 := c.extractLsb' 10 2

/-- CH = `cmd_data[9:8]` (30_encoding.md R45). -/
def cmdCh (c : Word) : BitVec 2 := c.extractLsb' 8 2

/-- VAL = `cmd_data[7:0]`, and EB of a SENDRAW (30_encoding.md R45). -/
def cmdByte (c : Word) : Byte := c.extractLsb' 0 8

/-- N = `cmd_data[13:0]` (30_encoding.md R45). -/
def cmdN (c : Word) : Delay := c.extractLsb' 0 14

/-- The channel a selector value names; all four are valid (30_encoding.md R46). -/
def channelOf (b : BitVec 2) : Channel :=
  if b = 0#2 then .intensity
  else if b = 1#2 then .red
  else if b = 2#2 then .green
  else .blue

/-- The decoder (30_encoding.md R42, R43): total, by bits 15:14 alone; ignored bits are dropped (R44). -/
def decode (c : Word) : Instr :=
  if cmdOp c = 0#2 then .send (cmdIdx c) (channelOf (cmdCh c)) (cmdByte c)
  else if cmdOp c = 1#2 then .sendraw (cmdByte c)
  else if cmdOp c = 2#2 then .setibd (cmdN c)
  else .rsvd

/-- The encoder: "the assembled word is {OP, fields} with ignored bits 0" (30_encoding.md R52). -/
def encode : Instr → Word
  | .send idx ch val =>
    0x0000#16 ||| (idx.setWidth 16 <<< 10) ||| (ch.bits.setWidth 16 <<< 8) ||| val.setWidth 16
  | .sendraw eb => 0x4000#16 ||| eb.setWidth 16
  | .setibd n => 0x8000#16 ||| n.setWidth 16
  | .rsvd => 0xC000#16

/-- One row of the opcode table: its match and mask (30_encoding.md R42, spec/opcode_table.json). -/
structure OpcodeRow where
  mnemonic : String
  pattern : Word
  mask : Word
deriving DecidableEq, Repr

/-- The opcode table (30_encoding.md R42). -/
def opcodeTable : List OpcodeRow :=
  [ ⟨"SEND", 0x0000#16, 0xC000#16⟩,
    ⟨"SENDRAW", 0x4000#16, 0xC000#16⟩,
    ⟨"SETIBD", 0x8000#16, 0xC000#16⟩,
    ⟨"RSVD", 0xC000#16, 0xC000#16⟩ ]

/-- A word falls in a row of the table. -/
def OpcodeRow.covers (r : OpcodeRow) (c : Word) : Bool := decide (c &&& r.mask = r.pattern)

/-- The table's name of an instruction. -/
def Instr.mnemonic : Instr → String
  | .send _ _ _ => "SEND"
  | .sendraw _ => "SENDRAW"
  | .setibd _ => "SETIBD"
  | .rsvd => "RSVD"

/-- The bits of each row that are no operand and no opcode: the "ignored" bits of 30_encoding.md R42. -/
def ignoredBits : Instr → Word
  | .send _ _ _ => 0x3000#16
  | .sendraw _ => 0x3F00#16
  | .setibd _ => 0x0000#16
  | .rsvd => 0x3FFF#16

/-- Why some bits are no command word. -/
inductive DecodeError where
  /-- More than the 16 bits a command word has (30_encoding.md R42: "There is one length"; log 13). -/
  | widerThanACommandWord (nbits : Nat)
deriving DecidableEq, Repr

/-- The decoder on bits of a stated width: the bits above `nbits` are 0 (log 13). -/
def decodeBits (nbits w : Nat) : Except DecodeError Instr :=
  if nbits ≤ 16 then .ok (decode (BitVec.ofNat 16 (w % 2 ^ nbits)))
  else .error (.widerThanACommandWord nbits)

/-- What the decoder reads from a word numbered as spec/opcode_table.json numbers it. -/
def decodeTableWord (nbits w : Nat) : Option Instr :=
  match decodeBits nbits w with
  | .ok i => some i
  | .error _ => none

end Sys2Proof
end

