-- ==== Sys2Proof/Machine/State.lean ====
section
/-! DEFINITION. The state of SLET as plain data (10_state.md R24 to R30, INVENTORY.md '## State'), the reasons a
step can stop, and the state after reset. SLET has no memory (20_memory.md R32), no general register and no
program counter (10_state.md R21), so State has none. -/

namespace Sys2Proof.Machine

/-- PHASE, the transmitter state (10_state.md R26). -/
inductive Phase where
  /-- `IDLE`: no byte in progress, commands accepted. -/
  | idle
  /-- `FRAME`: a frame is on `txd`. -/
  | frame
  /-- `PAUSE`: the inter-byte pause after a frame. -/
  | pause
deriving DecidableEq, Repr

/-- An event of the wire log (10_state.md R30). -/
inductive Event where
  /-- One frame carrying `w`, followed by a pause of `pause` time units. -/
  | byte (w : Byte) (pause : Delay)
  /-- A frame or pause cut short by reset (70_reset_and_hazards.md R121). -/
  | abort
deriving DecidableEq, Repr

/-- The values the host drives on the input ports (10_state.md R20) in one cycle. `hold` is the model's
own: the host keeps this drive until a cycle in which `cmd_ready` is 1 (41_transmitter.md R74; log 3). -/
structure Drive where
  rst : Bool
  cmdValid : Bool
  cmdData : Word
  hold : Bool
deriving DecidableEq, Repr

/-- Why the machine stops with a fault. SLET "raises no synchronous exception. No command word faults,
stops the block or is refused by it" (60_exceptions.md R110), so there is none: nothing raises a fault. -/
inductive Fault where
deriving DecidableEq, Repr

/-- Why a step has no next state. -/
inductive Refusal where
  /-- An arm of `exec` without a meaning; raised by no arm of this model. Safe: the run stops. -/
  | notModelled (mnemonic : String)
  /-- Raised by `step` alone, on a state with `launched` = false and `rst` = 0: the state before the first
  reset is unspecified and "a run without it is refused" (70_reset_and_hazards.md R122; log 7). Safe. -/
  | beforeFirstReset
deriving DecidableEq, Repr

/-- The state of SLET in one cycle of `clk`. -/
structure State where
  /-- IBD, the inter-byte delay (10_state.md R24). -/
  ibd : Delay
  /-- ERR, the sticky reserved-command flag (10_state.md R25). -/
  err : Bool
  /-- PHASE (10_state.md R26). -/
  phase : Phase
  /-- FRM[9:0], the frame being sent: stop bit, data, start bit (10_state.md R27). -/
  frm : BitVec 10
  /-- BIT, the index of the frame bit now on the line (10_state.md R27). -/
  bit : Nat
  /-- BCNT, the cycles left in the current bit (10_state.md R27). -/
  bcnt : Nat
  /-- DCNT, the cycles left in the pause (10_state.md R27). -/
  dcnt : Nat
  /-- PIBD, the IBD latched at acceptance (10_state.md R27). -/
  pibd : Delay
  /-- TXQ, the registered line level (10_state.md R27). -/
  txq : Bool
  /-- The wire log (20_memory.md R31). -/
  log : List Event
  /-- The input ports in this cycle (10_state.md R20). -/
  port : Drive
  /-- What the host drives in the cycles to come; the model's own (log 3). -/
  host : List Drive
  /-- One edge with `rst` = 1 has occurred (70_reset_and_hazards.md R122); the model's own (log 7). -/
  launched : Bool
  /-- The parameters of the instance (00_scope.md R5, R6; log 2). -/
  params : Params
  /-- How many free values have been drawn; the model's own (log 6). -/
  draws : Nat
deriving DecidableEq, Repr

/-- The state in the first cycle after the first reset edge (70_reset_and_hazards.md R120, 10_state.md R30).
FRM, the input ports and the model's own fields hold the values of log 4, log 5, log 6 and log 10. -/
def State.reset : State where
  ibd := Config.ibdReset
  err := false
  phase := .idle
  frm := 0#10
  bit := 0
  bcnt := 0
  dcnt := 0
  pibd := 0#14
  txq := true
  log := []
  port := ⟨false, false, 0#16, false⟩
  host := []
  launched := true
  params := Config.params
  draws := 0

end Sys2Proof.Machine
end

