-- ==== Sys2Proof/Machine/Encoder.lean ====
section
/-! DEFINITION. The encoder family: the pure functions of 40_encoder.md. The spec's `encode` is named
`encodeByte` here, because `Sys2Proof.encode` is the encoder of command words. -/

namespace Sys2Proof.Machine

/-- `encode(idx, ch, val)`, the Byte Encoder (40_encoder.md R60), as the pseudocode writes it; the low
nibble of the value is discarded and no operand is refused. -/
def encodeByte (idx ch : BitVec 2) (val : Byte) : Byte :=
  (((val >>> 4) &&& 0xF#8) <<< 4) ||| ((ch.setWidth 8 &&& 3#8) <<< 2) ||| (idx.setWidth 8 &&& 3#8)

/-- `wire_code(b) = (~(b << 1)) & 0xFF`, "with the shift done in at least 9 bits and then truncated"
(40_encoder.md R61). Encoded bit 7 is lost (90_conflicts.md C1). -/
def wireCode (b : Byte) : Byte :=
  ((~~~(b.setWidth 9 <<< 1)) &&& 0xFF#9).setWidth 8

/-- `wire(idx, ch, val)`, the byte a SEND puts on the line (40_encoder.md R62). -/
def wire (idx ch : BitVec 2) (val : Byte) : Byte := wireCode (encodeByte idx ch val)

/-- `decode_enc(b)`: index, channel and value nibble of an encoded byte (40_encoder.md R63). -/
def decodeEnc (b : Byte) : BitVec 2 × BitVec 2 × BitVec 4 :=
  (b.extractLsb' 0 2, b.extractLsb' 2 2, b.extractLsb' 4 4)

/-- `decode_wire(w)`: what a wire byte carries; `none` is the spec's NotAWireCode (40_encoder.md R64). -/
def decodeWire (w : Byte) : Option (BitVec 2 × BitVec 2 × BitVec 3) :=
  if w.getLsbD 0 = false then none
  else some (~~~(w.extractLsb' 1 2), ~~~(w.extractLsb' 3 2), ~~~(w.extractLsb' 5 3))

end Sys2Proof.Machine
end

