-- ==== Sys2Proof/Machine/Operands.lean ====
section
/-! DEFINITION. What is read from the command port without a command being accepted: the combinational outputs
(10_state.md R29), and the byte and frame a command hands to the transmitter (30_encoding.md R50, 10_state.md R27). -/

namespace Sys2Proof.Machine

/-- `enc_out` of a word on `cmd_data`, whatever its opcode (10_state.md R29). -/
def encOutOf (c : Word) : Byte := encodeByte (cmdIdx c) (cmdCh c) (cmdByte c)

/-- `wire_out` of a word on `cmd_data`, whatever its opcode (10_state.md R29). -/
def wireOutOf (c : Word) : Byte := wireCode (encOutOf c)

/-- The output port `enc_out` (10_state.md R20, R29). -/
def State.encOut (s : State) : Byte := encOutOf s.port.cmdData

/-- The output port `wire_out` (10_state.md R20, R29). -/
def State.wireOut (s : State) : Byte := wireOutOf s.port.cmdData

/-- The frame register's contents for wire byte `w`: `{1, w[7:0], 0}`, stop bit, data, start bit
(10_state.md R27). -/
def frameOf (w : Byte) : BitVec 10 := 1#1 ++ w ++ 0#1

end Sys2Proof.Machine
end

