-- ==== Sys2Proof/Machine/Flags.lean ====
section
/-! DEFINITION. The status of SLET: the output `cmd_ready` (10_state.md R22), the sticky flag ERR (R25), and the
other outputs read from registers (R20). There is no other flag (R23). -/

namespace Sys2Proof.Machine

/-- `cmd_ready = (rst == 0) && (PHASE == IDLE)` (10_state.md R22). -/
def State.cmdReady (s : State) : Bool := !s.port.rst && decide (s.phase = .idle)

/-- The flag computation of the reserved command: `ERR <- 1` (41_transmitter.md R79, 10_state.md R25). -/
def State.setErr (s : State) : State := { s with err := true }

/-- The output port `err` (10_state.md R20, R25). -/
def State.errOut (s : State) : Bool := s.err

/-- The output port `ibd_q` (10_state.md R20, R24). -/
def State.ibdQ (s : State) : Delay := s.ibd

/-- The output port `txd = TXQ ^ P_TXD_INVERT` (10_state.md R27). -/
def State.txd (s : State) : Bool := xor s.txq s.params.txdInvert

/-- The output ports of SLET in one cycle (10_state.md R20); nothing else can be observed (60_exceptions.md R118). -/
structure Outputs where
  cmdReady : Bool
  txd : Bool
  err : Bool
  ibdQ : Delay
  encOut : Byte
  wireOut : Byte
deriving DecidableEq, Repr

/-- All output ports at once. -/
def State.outputs (s : State) : Outputs :=
  ⟨s.cmdReady, s.txd, s.errOut, s.ibdQ, s.encOut, s.wireOut⟩

end Sys2Proof.Machine
end

