-- ==== Sys2Proof/Machine/Timing.lean ====
section
/-! DEFINITION. The numbers of the cycle level: frame and pause lengths, the level schedule of a frame
(30_encoding.md R50, 41_transmitter.md R83, R84), cycle counts (70_reset_and_hazards.md R135) and wall-clock figures
(R136, 41_transmitter.md R88). No rule of the transaction level depends on them (00_scope.md R10). -/

namespace Sys2Proof.Machine

/-- The cycles of one frame, `10 * P_DIV` (41_transmitter.md R83). -/
def frameCycles (p : Params) : Nat := 10 * p.div

/-- The cycles of a pause of `n` time units, `n * P_UNIT_CYCLES` (41_transmitter.md R82). -/
def pauseCycles (p : Params) (n : Delay) : Nat := n.toNat * p.unitCycles

/-- The level of frame bit `k` of wire byte `w`: start bit, eight data bits least significant first,
stop bit (30_encoding.md R50, 41_transmitter.md R83). -/
def frameLevel (w : Byte) (k : Nat) : Bool :=
  if k = 0 then false
  else if k ≤ 8 then w.getLsbD (k - 1)
  else true

/-- The cycles from the accepting edge of an instruction until `cmd_ready` = 1, with IBD = `ibd` at
acceptance (70_reset_and_hazards.md R135). -/
def cyclesUntilReady (p : Params) (ibd : Delay) : Instr → Nat
  | .send _ _ _ => frameCycles p + pauseCycles p ibd
  | .sendraw _ => frameCycles p + pauseCycles p ibd
  | .setibd _ => 0
  | .rsvd => 0

/-- IBD after an instruction: only SETIBD changes it (41_transmitter.md R76 to R79). -/
def ibdAfter (ibd : Delay) : Instr → Delay
  | .send _ _ _ => ibd
  | .sendraw _ => ibd
  | .setibd n => n
  | .rsvd => ibd

/-- The edges a host needs that always offers its next word: for each word its accepting edge, at the
first cycle with `cmd_ready` = 1, and the cycles until `cmd_ready` = 1 again (R135, 41_transmitter.md R86). -/
def streamCycles (p : Params) : Delay → List Word → Nat
  | _, [] => 0
  | ibd, c :: cs => 1 + cyclesUntilReady p ibd (decode c) + streamCycles p (ibdAfter ibd (decode c)) cs

/-- The least length of a tick in cycles, from its first acceptance to the end of its last pause
(45_host_sequence.md R104). -/
def tickMinCycles (p : Params) (ibd : Delay) : Nat := 16 * (frameCycles p + pauseCycles p ibd + 1) - 1

/-- The intended divider, `round(P_CLK_HZ / P_BAUD)` (00_scope.md R5); halves round up (log 19). -/
def intendedDiv (clkHz : Nat) : Nat := (clkHz + Config.baud / 2) / Config.baud

/-- The duration of one bit in seconds, `P_DIV / P_CLK_HZ`: `1/9600` at 9600 baud exactly
(70_reset_and_hazards.md R136). -/
def bitSeconds (p : Params) : Rat := (p.div : Rat) / (p.clkHz : Rat)

/-- The duration of a frame in seconds, `10 * P_DIV / P_CLK_HZ` (41_transmitter.md R88). -/
def frameSeconds (p : Params) : Rat := (frameCycles p : Rat) / (p.clkHz : Rat)

/-- The duration of one time unit in seconds, `P_UNIT_CYCLES / P_CLK_HZ` (70_reset_and_hazards.md R136). -/
def unitSeconds (p : Params) : Rat := (p.unitCycles : Rat) / (p.clkHz : Rat)

/-- The least duration of a tick in seconds: 16 frames, 16 pauses of IBD time units and 16 idle cycles
(70_reset_and_hazards.md R136). The idle cycles are those in which the 16 SENDs are offered; R104's count
(`tickMinCycles`) begins with the first acceptance and so leaves the first of them out. -/
def tickMinSeconds (p : Params) (ibd : Delay) : Rat :=
  16 * frameSeconds p + 16 * (ibd.toNat * unitSeconds p) + 16 / (p.clkHz : Rat)

end Sys2Proof.Machine
end

