-- ==== Sys2Proof/Machine/Ops.lean ====
section
/-! DEFINITION. The named operations on the state: what an edge of `clk` is, how the host's drives move on, the
start of a frame (Emit and Pause, 41_transmitter.md R80, R82), the timers (R83, R84) and reset
(70_reset_and_hazards.md R120, R121). SLET takes no exception and returns from none (60_exceptions.md R110, R114),
so there is no operation for that. -/

namespace Sys2Proof.Machine

/-- What a rising edge of `clk` does, from the inputs and the state of the cycle before it. -/
inductive EdgeKind where
  /-- `rst` = 1: reset, with priority over everything (60_exceptions.md R113). -/
  | reset
  /-- No reset has occurred yet and `rst` = 0 (70_reset_and_hazards.md R122). -/
  | unlaunched
  /-- `cmd_valid` = 1 and `cmd_ready` = 1: the word is accepted (41_transmitter.md R75). -/
  | accept (c : Word)
  /-- None of these: only the timers move. -/
  | run
deriving DecidableEq, Repr

/-- The kind of the edge that ends the cycle of state `s` (41_transmitter.md R71, R75). -/
def State.edge (s : State) : EdgeKind :=
  if s.port.rst then .reset
  else if !s.launched then .unlaunched
  else if s.port.cmdValid && s.cmdReady then .accept s.port.cmdData
  else .run

/-- The host's drives move on at an edge: a held drive stays while `cmd_ready` is 0; otherwise the next
drive comes on the ports; when none is left the host offers nothing and leaves `cmd_data` as it is
(41_transmitter.md R74; log 3, log 4). A drive with `rst` = 1 lasts one cycle. -/
def State.takeInputs (s : State) : State :=
  if s.port.hold && !s.port.rst && !s.cmdReady then s
  else match s.host with
    | [] => { s with port := ⟨false, false, s.port.cmdData, false⟩ }
    | d :: ds => { s with port := d, host := ds }

/-- Emit(w) and Pause(IBD) at the accepting edge (41_transmitter.md R80, R82, R83): the event is
appended, PIBD and FRM are loaded, and the start bit goes on the line. -/
def State.startFrame (w : Byte) (s : State) : State :=
  { s with
    log := s.log ++ [.byte w s.ibd]
    phase := .frame
    frm := frameOf w
    bit := 0
    bcnt := s.params.div - 1
    pibd := s.ibd
    txq := (frameOf w).getLsbD 0 }

/-- `IBD <- N` (41_transmitter.md R78): every value is stored as written (10_state.md R24). -/
def State.setIbd (n : Delay) (s : State) : State := { s with ibd := n }

/-- Frame bit `k` goes on the line for `P_DIV` cycles (41_transmitter.md R83). -/
def State.driveBit (k : Nat) (s : State) : State :=
  { s with bit := k, bcnt := s.params.div - 1, txq := s.frm.getLsbD k }

/-- The frame has ended: a pause of `P = PIBD * P_UNIT_CYCLES` cycles if `P > 0`, else `IDLE`, with the
line at 1 (41_transmitter.md R84). BIT and BCNT rest at 0 (log 9). -/
def State.endFrame (s : State) : State :=
  if 0 < pauseCycles s.params s.pibd then
    { s with phase := .pause, bit := 0, bcnt := 0, dcnt := pauseCycles s.params s.pibd, txq := true }
  else
    { s with phase := .idle, bit := 0, bcnt := 0, dcnt := 0, txq := true }

/-- An edge inside a frame (41_transmitter.md R83). -/
def State.frameEdge (s : State) : State :=
  if 0 < s.bcnt then { s with bcnt := s.bcnt - 1 }
  else if s.bit < 9 then s.driveBit (s.bit + 1)
  else s.endFrame

/-- An edge inside a pause: DCNT counts down to 0, then `IDLE` (41_transmitter.md R84). -/
def State.pauseEdge (s : State) : State :=
  if 1 < s.dcnt then { s with dcnt := s.dcnt - 1 }
  else { s with phase := .idle, dcnt := 0 }

/-- An edge at which no command is accepted and no reset is sampled: only the timers of
60_exceptions.md R116 move. -/
def State.runEdge (s : State) : State :=
  match s.phase with
  | .idle => s
  | .frame => s.frameEdge
  | .pause => s.pauseEdge

/-- The log after a reset edge: kept, with `Abort` appended when a frame or pause is cut short
(70_reset_and_hazards.md R121); empty at the first reset of the run (10_state.md R30). -/
def State.logAfterReset (s : State) : List Event :=
  if s.launched then
    if s.phase = .idle then s.log else s.log ++ [.abort]
  else []

/-- A reset edge (70_reset_and_hazards.md R120). FRM takes a free value (log 6). -/
def State.resetEdge (s : State) : State :=
  { s with
    ibd := Config.ibdReset
    err := false
    phase := .idle
    frm := Config.freeFrm s.draws
    bit := 0
    bcnt := 0
    dcnt := 0
    pibd := 0#14
    txq := true
    log := s.logAfterReset
    launched := true
    draws := s.draws + 1 }

end Sys2Proof.Machine
end

