-- ==== Sys2Proof/Machine/Transmitter.lean ====
section
/-! DEFINITION. The meanings of the four commands (41_transmitter.md R76 to R79): what the accepting edge does. They
are total: no command has an exception or an error case (60_exceptions.md R110). -/

namespace Sys2Proof.Machine

/-- SEND IDX, CH, VAL: encode, transform, transmit, pause IBD (41_transmitter.md R76). -/
def execSend (idx : BitVec 2) (ch : Channel) (val : Byte) (s : State) : Host.Outcome State Fault Refusal :=
  .next (s.startFrame (wireCode (encodeByte idx ch.bits val)))

/-- SENDRAW EB: transform, transmit, pause IBD (41_transmitter.md R77). -/
def execSendraw (eb : Byte) (s : State) : Host.Outcome State Fault Refusal :=
  .next (s.startFrame (wireCode eb))

/-- SETIBD N: `IBD <- N` (41_transmitter.md R78). -/
def execSetibd (n : Delay) (s : State) : Host.Outcome State Fault Refusal :=
  .next (s.setIbd n)

/-- RSVD: `ERR <- 1`; IBD and the wire log are unchanged (41_transmitter.md R79). -/
def execRsvd (s : State) : Host.Outcome State Fault Refusal :=
  .next s.setErr

end Sys2Proof.Machine
end

