-- ==== Sys2Proof/Machine/Dispatch.lean ====
section
/-! DEFINITION. The dispatch: one arm per command. -/

namespace Sys2Proof.Machine

/-- The effect of an accepted command (41_transmitter.md R76 to R79). -/
def exec (i : Instr) (s : State) : Host.Outcome State Fault Refusal :=
  match i with
  | .send idx ch val => Sys2Proof.Machine.execSend idx ch val s
  | .sendraw eb => Sys2Proof.Machine.execSendraw eb s
  | .setibd n => Sys2Proof.Machine.execSetibd n s
  | .rsvd => Sys2Proof.Machine.execRsvd s

end Sys2Proof.Machine
end

