-- ==== Sys2Proof/Machine/Step.lean ====
section
/-! DEFINITION. One step of SLET: one rising edge of `clk` (41_transmitter.md R71; log 1). -/

namespace Sys2Proof.Machine

/-- One rising edge: reset, the acceptance of a command, or the timers alone. -/
def step (s : State) : Host.Outcome State Fault Refusal :=
  match s.edge with
  | .reset => .next s.takeInputs.resetEdge
  | .unlaunched => .refused .beforeFirstReset
  | .accept c => exec (decode c) s.takeInputs
  | .run => .next s.takeInputs.runEdge

/-- `s` with a command word offered on the ports so that the very next edge accepts it: a reset has
occurred, the transmitter is at rest in `IDLE` (so `cmd_ready` = 1), `rst` = 0 and `cmd_valid` = 1
(41_transmitter.md R75; log 10, log 11). -/
def State.withFetchWord (s : State) (nbits w : Nat) : State :=
  { s with
    launched := true
    phase := .idle
    bit := 0
    bcnt := 0
    dcnt := 0
    txq := true
    port := ⟨false, true, BitVec.ofNat 16 (w % 2 ^ nbits), true⟩ }

end Sys2Proof.Machine
end

