-- ==== Sys2Proof/Machine/Transaction.lean ====
section
/-! DEFINITION. The transaction level (00_scope.md R10): the abstract state and its two transitions, written from
10_state.md R30, 41_transmitter.md R73, R76 to R79 and 70_reset_and_hazards.md R120, R121 directly on the command word,
without the decoder, so that the cycle level can be compared with it. -/

namespace Sys2Proof.Machine

/-- The tuple `S` of 10_state.md R30. -/
structure TxnState where
  ibd : Delay
  err : Bool
  log : List Event
deriving DecidableEq, Repr

/-- "the initial state of a run, at its first reset" (10_state.md R30). -/
def TxnState.initial : TxnState := ⟨40#14, false, []⟩

/-- `step(S, c)`: the acceptance of one command word (41_transmitter.md R73), by its opcode `c[15:14]`. -/
def TxnState.step (S : TxnState) (c : Word) : TxnState :=
  if cmdOp c = 0#2 then
    { S with log := S.log ++ [.byte (wire (cmdIdx c) (cmdCh c) (cmdByte c)) S.ibd] }
  else if cmdOp c = 1#2 then
    { S with log := S.log ++ [.byte (wireCode (cmdByte c)) S.ibd] }
  else if cmdOp c = 2#2 then { S with ibd := cmdN c }
  else { S with err := true }

/-- A later reset: IBD and ERR at their reset values, the log kept, `Abort` appended when a frame or pause
is `cut` short (10_state.md R30, 70_reset_and_hazards.md R121). -/
def TxnState.reset (S : TxnState) (cut : Bool) : TxnState :=
  ⟨40#14, false, if cut then S.log ++ [.abort] else S.log⟩

/-- A whole command stream at the transaction level. -/
def TxnState.run (S : TxnState) (cs : List Word) : TxnState := cs.foldl TxnState.step S

/-- What the transaction level sees of a cycle-level state (10_state.md R30): "PHASE and the counters of
rule R27 are refinement state". It is the observation of a run (20_memory.md R31, 70_reset_and_hazards.md R137). -/
def State.txn (s : State) : TxnState := ⟨s.ibd, s.err, s.log⟩

/-- The host has a command to offer, in this cycle or in a listed one: a drive with `cmd_valid` = 1. -/
def State.commandsLeft (s : State) : Bool := s.port.cmdValid || s.host.any Drive.cmdValid

/-- The end of a run: the host has no further command to offer and `cmd_ready` = 1 (70_reset_and_hazards.md R137).
The rule speaks of commands only, so a quiet cycle, a wait or a reset still listed does not keep a run from
its end (DEDUCED, log 27). -/
def State.runEnded (s : State) : Bool := s.cmdReady && !s.commandsLeft

end Sys2Proof.Machine
end

