-- ==== Sys2Proof/Machine/HostStream.lean ====
section
/-! DEFINITION. The reference host of 45_host_sequence.md, which is NOT hardware (00_scope.md R4, 10_state.md R28): its
pods, registry, scheduler and outside writers as plain data outside `State`, the command streams it issues
(30_encoding.md R53), and the drives that put a stream on the ports (log 15). -/

namespace Sys2Proof.Machine

/-- A Pod record (45_host_sequence.md R91); brightness and colour are non-negative integers of any size
(30_encoding.md R53; log 16). -/
structure Pod where
  index : BitVec 2
  brightness : Nat
  color : Nat
deriving DecidableEq, Repr

/-- The scheduler's two states (45_host_sequence.md R98). -/
inductive Scheduler where
  | idle
  | running
deriving DecidableEq, Repr

/-- A write an external caller makes to the pod with index `i`: `set_brightness` or `set_color`
(45_host_sequence.md R93, R94). -/
inductive PodWrite where
  | brightness (i : BitVec 2) (value : Nat)
  | color (i : BitVec 2) (value : Nat)
deriving DecidableEq, Repr

/-- What the reference host holds (45_host_sequence.md R90), and the writes of external callers that have begun
and not ended (R97). -/
structure RefHost where
  registry : List Pod
  scheduler : Scheduler
  interval : Nat
  writing : List PodWrite
deriving DecidableEq, Repr

/-- The registry of the reference host: `P_POD_COUNT` pods with indices 0, 1, 2, 3 in creation order
(45_host_sequence.md R92). -/
def Registry.wf (r : List Pod) : Bool := decide (r.map Pod.index = [0#2, 1#2, 2#2, 3#2])

/-- Boot steps 3 and the default interval (70_reset_and_hazards.md R125, 45_host_sequence.md R92, R99): four
pods with the given brightness and colour, created in index order. -/
def RefHost.create (p0 p1 p2 p3 : Nat × Nat) : RefHost where
  registry := [⟨0#2, p0.1, p0.2⟩, ⟨1#2, p1.1, p1.2⟩, ⟨2#2, p2.1, p2.2⟩, ⟨3#2, p3.1, p3.2⟩]
  scheduler := .idle
  interval := Config.tickDefault
  writing := []

/-- The pod after a write: last value wins, and a write to another index leaves it (45_host_sequence.md R91). -/
def Pod.store (w : PodWrite) (p : Pod) : Pod :=
  match w with
  | .brightness i value => if p.index = i then { p with brightness := value } else p
  | .color i value => if p.index = i then { p with color := value } else p

/-- A write stored; no other side effect (45_host_sequence.md R93). -/
def RefHost.store (w : PodWrite) (h : RefHost) : RefHost := { h with registry := h.registry.map (Pod.store w) }

/-- `set_brightness(value)` of the pod with index `i`: stored, never refused (45_host_sequence.md R93). -/
def RefHost.setBrightness (i : BitVec 2) (value : Nat) (h : RefHost) : RefHost := h.store (.brightness i value)

/-- `set_color(value)` of the pod with index `i` (45_host_sequence.md R94). -/
def RefHost.setColor (i : BitVec 2) (value : Nat) (h : RefHost) : RefHost := h.store (.color i value)

/-- The effective interval: `max(x, 500)` for a positive `x` (45_host_sequence.md R99). -/
def effectiveInterval (x : ℕ+) : Nat := max (x : Nat) Config.tickFloor

/-- `set_update_interval(x)` (45_host_sequence.md R99). -/
def RefHost.setUpdateInterval (x : ℕ+) (h : RefHost) : RefHost :=
  { h with interval := effectiveInterval x }

/-- Idle -> Running, by explicit initialization; there is no way back (45_host_sequence.md R98). -/
def RefHost.activate (h : RefHost) : RefHost := { h with scheduler := .running }

/-- What external callers do to the host, at any time (45_host_sequence.md R97, 70_reset_and_hazards.md R125): a write
that is whole at once, the two ends of a write that takes time, and `set_update_interval`. -/
inductive HostEvent where
  | store (w : PodWrite)
  | beginWrite (w : PodWrite)
  | finishWrite (k : Nat)
  | setInterval (x : ℕ+)
deriving DecidableEq, Repr

/-- The write in progress number `k` ends: its value is stored. -/
def RefHost.finishWrite (k : Nat) (h : RefHost) : RefHost :=
  match h.writing[k]? with
  | none => h
  | some w => { h.store w with writing := h.writing.eraseIdx k }

/-- One event. -/
def RefHost.event (h : RefHost) : HostEvent → RefHost
  | .store w => h.store w
  | .beginWrite w => { h with writing := h.writing ++ [w] }
  | .finishWrite k => h.finishWrite k
  | .setInterval x => h.setUpdateInterval x

/-- Events in the order in which they happen. -/
def RefHost.events (h : RefHost) (es : List HostEvent) : RefHost := es.foldl RefHost.event h

/-- `channel_byte_of(color, channel)` by `COLOR_MAP` (45_host_sequence.md R94, 00_scope.md R5). Intensity
has no colour byte. -/
def channelByteOf (color : Nat) : Channel → Option Nat
  | .intensity => none
  | .red => some ((color >>> 16) &&& Config.valueMask)
  | .green => some ((color >>> 8) &&& Config.valueMask)
  | .blue => some (color &&& Config.valueMask)

/-- The value the host sends for one channel of a pod (45_host_sequence.md R93, R94, R95). -/
def channelValue (bright color : Nat) (c : Channel) : Nat :=
  match channelByteOf color c with
  | none => bright &&& Config.valueMask
  | some v => v

/-- The pseudo-instruction SENDPOD: four commands, Intensity, Red, Green, Blue (30_encoding.md R53). -/
def sendPod (p : BitVec 2) (bright color : Nat) : List Instr :=
  [Channel.intensity, .red, .green, .blue].map fun c => .send p c (BitVec.ofNat 8 (channelValue bright color c))

/-- The tick body, and the pseudo-instruction TICK: SENDPOD for each pod in registry order
(45_host_sequence.md R95, 30_encoding.md R53). -/
def tickCommands (registry : List Pod) : List Instr :=
  registry.flatMap fun p => sendPod p.index p.brightness p.color

/-- A pod as it may be read while the writes `writing` are in progress: each field is the stored value or the
value of a write in progress to that field of that pod, in any combination (45_host_sequence.md R97). -/
def Pod.readDuring (writing : List PodWrite) (stored seen : Pod) : Bool :=
  decide (seen.index = stored.index)
    && (decide (seen.brightness = stored.brightness)
      || decide (.brightness stored.index seen.brightness ∈ writing))
    && (decide (seen.color = stored.color) || decide (.color stored.index seen.color ∈ writing))

/-- The read of a pod, once, at the start of its group of commands (45_host_sequence.md R97). Which of the
allowed pairs it sees is the argument `seen`; with none, or one that is not allowed, it sees the stored pair (log 15). -/
def RefHost.readPod (h : RefHost) (p : Pod) (seen : Option (Nat × Nat)) : Pod :=
  match seen with
  | none => p
  | some (bright, color) =>
    if Pod.readDuring h.writing p ⟨p.index, bright, color⟩ then ⟨p.index, bright, color⟩ else p

/-- What the outside does around one pod's group: the events since the read of the group before, and the pair
of brightness and colour that this group's read sees. -/
structure GroupInput where
  events : List HostEvent := []
  seen : Option (Nat × Nat) := none
deriving DecidableEq, Repr

/-- The reads of a tick, one for each registry position in `ks`, each at the moment its group starts
(45_host_sequence.md R95, R97): the host after them, and the pods as read. -/
def RefHost.sample (h : RefHost) : List Nat → List GroupInput → RefHost × List Pod
  | [], _ => (h, [])
  | k :: ks, gs =>
    let g := gs.headD {}
    let h1 := h.events g.events
    let rest := h1.sample ks gs.tail
    (rest.1, (h1.registry[k]?.map fun p => h1.readPod p g.seen).toList ++ rest.2)

/-- A command as the host issues it: `quiet` cycles in which nothing is offered, then the offer, held until it
is accepted (41_transmitter.md R74, 70_reset_and_hazards.md R130). -/
structure Offer where
  quiet : Nat
  instr : Instr
deriving DecidableEq, Repr

/-- A command offered at once. -/
def Offer.now (i : Instr) : Offer := ⟨0, i⟩

/-- A SETIBD that the host issues, after `quiet` cycles in which nothing is offered (70_reset_and_hazards.md R125). -/
structure IbdCall where
  quiet : Nat
  n : Delay
deriving DecidableEq, Repr

/-- The command of the call. -/
def IbdCall.offer (c : IbdCall) : Offer := ⟨c.quiet, .setibd c.n⟩

/-- Commands with the quiet cycles before each of them, and the SETIBDs issued ahead of each: a SETIBD may be
issued at any time (70_reset_and_hazards.md R125, R129), and the gap is as long as the host leaves it (41_transmitter.md
R86; log 29). -/
def withIbds : List Instr → List Nat → List (List IbdCall) → List Offer
  | [], _, _ => []
  | i :: is, gaps, ns =>
    (ns.headD []).map IbdCall.offer ++ ⟨gaps.headD 0, i⟩ :: withIbds is gaps.tail ns.tail

/-- What the outside does around one tick: group by group; the quiet cycles before each of its SENDs, and the
SETIBDs issued ahead of each; the events from the last read to the end of the tick; the SETIBD issued after the last
SEND and no later than the end of the tick, if one is, which waits for `cmd_ready` and so is accepted in the
first cycle in which it is 1; and the SETIBDs issued in the pause after that. Where a list ends, nothing happens and
nothing is waited for. -/
structure TickInput where
  groups : List GroupInput := []
  gaps : List Nat := []
  ibds : List (List IbdCall) := []
  atEnd : List HostEvent := []
  endIbd : Option IbdCall := none
  pauseIbds : List IbdCall := []
deriving DecidableEq, Repr

/-- One tick of the scheduler (45_host_sequence.md R95, R97, R98): the host at the end of the tick, and the
commands issued up to its last SEND. Every pod is read from the host's registry as it stands when the pod's group
starts. An Idle host has no tick. -/
def RefHost.tick (h : RefHost) (t : TickInput) : RefHost × List Offer :=
  match h.scheduler with
  | .idle => (h, [])
  | .running =>
    let r := h.sample (List.range h.registry.length) t.groups
    (r.1.events t.atEnd, withIbds (tickCommands r.2) t.gaps t.ibds)

/-- A drive that offers `c` until it is accepted (41_transmitter.md R74, 70_reset_and_hazards.md R130). -/
def Drive.offer (c : Word) : Drive := ⟨false, true, c, true⟩

/-- A drive that waits for a cycle with `cmd_ready` = 1 without offering (20_memory.md R41). The zero word on
`cmd_data` is the model's choice (DESIGN CHOICE, log 25). -/
def Drive.waitReady : Drive := ⟨false, false, 0#16, true⟩

/-- One cycle in which nothing is offered. The zero word on `cmd_data`, and so `enc_out` and `wire_out` in this
cycle, are the model's choice (DESIGN CHOICE, log 25). -/
def Drive.quiet : Drive := ⟨false, false, 0#16, false⟩

/-- One cycle of reset (70_reset_and_hazards.md R120). That nothing is offered in it and that `cmd_data` is the zero
word are the model's choice (DESIGN CHOICE, log 25). -/
def Drive.reset : Drive := ⟨true, false, 0#16, false⟩

/-- The drives of one command: its quiet cycles, then the held offer. -/
def Offer.drives (o : Offer) : List Drive := List.replicate o.quiet .quiet ++ [.offer (encode o.instr)]

/-- The drives of a list of commands. -/
def offerAll (os : List Offer) : List Drive := os.flatMap Offer.drives

/-- The end of a tick, "the first cycle with `cmd_ready` = 1 after its 16th SEND" (45_host_sequence.md R100): the
host waits for it, or has a SETIBD on offer that is accepted in it (70_reset_and_hazards.md R125: "a SETIBD waits for
`cmd_ready` like any command"). -/
def tickEnd : Option IbdCall → List Drive
  | none => [.waitReady]
  | some c => c.offer.drives

/-- The inter-tick pause: the end of the tick, then `interval` time units, or longer where the SETIBDs issued in
the pause take longer (45_host_sequence.md R100; the exact length is a DESIGN CHOICE, log 23). SLET is idle in the
pause, so each SETIBD in it takes its quiet cycles and one more. -/
def interTick (p : Params) (interval : Nat) (endIbd : Option IbdCall) (ibds : List IbdCall) : List Drive :=
  let offers := offerAll (ibds.map IbdCall.offer)
  tickEnd endIbd ++ offers ++ List.replicate (interval * p.unitCycles - offers.length) .quiet

/-- The ticks of a running host under the inputs of each, with the inter-tick pause after each
(45_host_sequence.md R95, R98, R100). Which interval governs a pause is open when `set_update_interval` comes while
Running: the model takes the one in force at the end of the tick before the pause, so that a later call changes the
next pause and not this one (DESIGN CHOICE, log 26). -/
def tickDrives (p : Params) (h : RefHost) : List TickInput → List Drive
  | [] => []
  | t :: ts =>
    offerAll (h.tick t).2 ++ interTick p (h.tick t).1.interval t.endIbd t.pauseIbds
      ++ tickDrives p (h.tick t).1 ts

/-- The boot order of the reference host (70_reset_and_hazards.md R125): reset for one edge and `extra` more,
any number of SETIBDs, then the ticks. Steps 3 and 4 act on the host alone and have made `h`; the cycles that pass
around them are the quiet cycles of the next command. Steps 2 and 4, when they are repeated later, are in the
inputs of the ticks; steps 1 and 5 are done once (R126; log 28). -/
def bootDrives (p : Params) (extra : Nat) (ibds : List IbdCall) (h : RefHost) (ts : List TickInput) : List Drive :=
  List.replicate (extra + 1) .reset ++ offerAll (ibds.map IbdCall.offer) ++ tickDrives p h.activate ts

end Sys2Proof.Machine
end

