-- ==== Sys2Proof/Machine/Assembler.lean ====
section
/-! DEFINITION. The command-stream assembler (30_encoding.md R52, R53): a line to command words, and the text of a
line to the line (log 21). -/

namespace Sys2Proof.Machine

/-- The channel an operand in range names (30_encoding.md R52, R46). -/
def ChannelOperand.channel : ChannelOperand → Channel
  | .number n => channelOf (BitVec.ofNat 2 n)
  | .name c => c

/-- The words of a checked line (30_encoding.md R52, R53); TICK reads the pods of `registry`. -/
def AsmLine.words (registry : List Pod) : AsmLine → List Word
  | .send idx ch val => [encode (.send (BitVec.ofNat 2 idx) (ChannelOperand.channel ch) (BitVec.ofNat 8 val))]
  | .sendraw eb => [encode (.sendraw (BitVec.ofNat 8 eb))]
  | .setibd n => [encode (.setibd (BitVec.ofNat 14 n))]
  | .rsvd none => [encode .rsvd]
  | .rsvd (some k) => [encode .rsvd ||| BitVec.ofNat 16 k]
  | .sendpod pod bright color => (sendPod (BitVec.ofNat 2 pod) bright color).map encode
  | .tick => (tickCommands registry).map encode

/-- The assembler: an operand out of its range is an error, never truncated (30_encoding.md R52). -/
def assemble (registry : List Pod) (l : AsmLine) : Except AsmError (List Word) :=
  match l.check with
  | .ok () => .ok (AsmLine.words registry l)
  | .error e => .error e

/-- Why a line of text is no assembler line. -/
inductive ParseError where
  | unknownMnemonic
  | badOperands
deriving DecidableEq, Repr

/-- White space between tokens. -/
def isBlank (c : Char) : Bool := c = ' ' || c = '\t' || c = '\r' || c = '\n'

/-- A token ended: it is listed unless it is empty. -/
def flushToken (acc : List Char) : List (List Char) :=
  if acc.isEmpty then [] else [acc]

/-- The tokens of a line: commas stand alone, a semicolon begins a comment. -/
def tokensFrom (acc : List Char) : List Char → List (List Char)
  | [] => flushToken acc
  | c :: cs =>
    if c = ';' then flushToken acc
    else if c = ',' then flushToken acc ++ [','] :: tokensFrom [] cs
    else if isBlank c then flushToken acc ++ tokensFrom [] cs
    else tokensFrom (acc ++ [c]) cs

/-- The value of a digit character, hexadecimal letters in either case. -/
def digitValue (c : Char) : Option Nat :=
  let n := c.toNat
  if 48 ≤ n ∧ n ≤ 57 then some (n - 48)
  else if 65 ≤ n ∧ n ≤ 70 then some (n - 55)
  else if 97 ≤ n ∧ n ≤ 102 then some (n - 87)
  else none

/-- Digits of a base, most significant first, after the value `v` read so far. -/
def digitsFrom (base v : Nat) : List Char → Option Nat
  | [] => some v
  | c :: cs =>
    match digitValue c with
    | none => none
    | some d => if d < base then digitsFrom base (base * v + d) cs else none

/-- The digits of a literal. A literal without a digit is no number (DESIGN CHOICE, log 21). -/
def digitsOf (base : Nat) : List Char → Option Nat
  | [] => none
  | ds => digitsFrom base 0 ds

/-- A number token: decimal, `0x` hexadecimal or `0b` binary (30_encoding.md R52); an underscore in a
binary literal only groups digits (00_scope.md R8). The spec does not say whether a prefix with underscores alone,
`0b_`, is a literal: here it is none, since no digit is left (DESIGN CHOICE, log 21). -/
def numberOf : List Char → Option Nat
  | '0' :: 'x' :: ds => digitsOf 16 ds
  | '0' :: 'b' :: ds => digitsOf 2 (ds.filter fun c => c ≠ '_')
  | ds => digitsOf 10 ds

/-- A channel token (30_encoding.md R52). -/
def channelToken : List Char → Option ChannelOperand
  | ['I'] => some (.name .intensity)
  | ['R'] => some (.name .red)
  | ['G'] => some (.name .green)
  | ['B'] => some (.name .blue)
  | t => (numberOf t).map .number

/-- An operand list, or the error of bad operands. -/
def orBadOperands (l : Option AsmLine) : Except ParseError (Option AsmLine) :=
  match l with
  | none => .error .badOperands
  | some x => .ok (some x)

/-- The three operands of a token list `a , b , c`. -/
def threeOperands : List (List Char) → Option (List Char × List Char × List Char)
  | [a, [','], b, [','], c] => some (a, b, c)
  | _ => none

/-- The line the tokens write (30_encoding.md R52, R53). R52 does not say whether an empty or comment-only line
is a line of the syntax: here it is one, of no command, and `none` is answered (DESIGN CHOICE, log 21). -/
def parseTokens : List (List Char) → Except ParseError (Option AsmLine)
  | [] => .ok none
  | ['S', 'E', 'N', 'D'] :: ops => orBadOperands <|
      match threeOperands ops with
      | none => none
      | some (a, b, c) =>
        match numberOf a, channelToken b, numberOf c with
        | some i, some ch, some v => some (.send i ch v)
        | _, _, _ => none
  | ['S', 'E', 'N', 'D', 'R', 'A', 'W'] :: ops => orBadOperands <|
      match ops with
      | [a] => (numberOf a).map .sendraw
      | _ => none
  | ['S', 'E', 'T', 'I', 'B', 'D'] :: ops => orBadOperands <|
      match ops with
      | [a] => (numberOf a).map .setibd
      | _ => none
  | ['R', 'S', 'V', 'D'] :: ops => orBadOperands <|
      match ops with
      | [] => some (.rsvd none)
      | [a] => (numberOf a).map fun k => .rsvd (some k)
      | _ => none
  | ['S', 'E', 'N', 'D', 'P', 'O', 'D'] :: ops => orBadOperands <|
      match threeOperands ops with
      | none => none
      | some (a, b, c) =>
        match numberOf a, numberOf b, numberOf c with
        | some p, some bright, some color => some (.sendpod p bright color)
        | _, _, _ => none
  | ['T', 'I', 'C', 'K'] :: ops => orBadOperands <|
      match ops with
      | [] => some .tick
      | _ => none
  | _ => .error .unknownMnemonic

/-- The text of one line, as characters. -/
def parseLine (text : List Char) : Except ParseError (Option AsmLine) := parseTokens (tokensFrom [] text)

end Sys2Proof.Machine
end

