-- ==== Sys2Proof/Safety.lean ====
section
/-! DEFINITION. The terms claims are made in: the invariant of the cycle level, runs without reset, and what the spec
asks of an integrator and a host (70_reset_and_hazards.md R128, R131, R133). -/

namespace Sys2Proof.Machine

/-- A wire log that SLET can have driven: every byte carries the framing bit 1 (40_encoder.md R64), and every
`Abort` stands directly after the `Byte` it cuts (70_reset_and_hazards.md R121). `afterByte` says whether a
`Byte` stands directly before the list. -/
def logWfFrom (afterByte : Bool) : List Event → Bool
  | [] => true
  | .byte w _ :: es => w.getLsbD 0 && logWfFrom true es
  | .abort :: es => afterByte && logWfFrom false es

/-- `logWfFrom` of a whole log. -/
def logWf (l : List Event) : Bool := logWfFrom false l

/-- The transmitter's registers agree with PHASE, and with the last byte of the log while a byte is in
progress (10_state.md R26, R27, 41_transmitter.md R83, R84, R87). -/
def State.timersWf (s : State) : Bool :=
  match s.phase with
  | .idle => s.txq && decide (s.bit = 0 ∧ s.bcnt = 0 ∧ s.dcnt = 0)
  | .frame =>
    match s.log.getLast? with
    | some (.byte w p) =>
      decide (p = s.pibd ∧ s.frm = frameOf w ∧ s.bit ≤ 9 ∧ s.bcnt < s.params.div ∧ s.dcnt = 0
        ∧ s.txq = frameLevel w s.bit)
    | _ => false
  | .pause =>
    match s.log.getLast? with
    | some (.byte _ p) =>
      s.txq && decide (p = s.pibd ∧ s.bit = 0 ∧ s.bcnt = 0 ∧ 1 ≤ s.dcnt
        ∧ s.dcnt ≤ pauseCycles s.params s.pibd)
    | _ => false

/-- The invariant of the cycle level: legal parameters and, once launched, a log and a transmitter as the
rules give them. Before the first reset nothing is required of the registers (70_reset_and_hazards.md R122). -/
def State.Inv (s : State) : Prop :=
  s.params.wf = true ∧ (s.launched = true → logWf s.log = true ∧ s.timersWf = true)

/-- `n` edges of `clk` from a state; the host's `Host.Core.run` of this machine. -/
def runEdges : Nat → State → Host.Outcome State Fault Refusal
  | 0, s => .next s
  | n + 1, s =>
    match step s with
    | .next t => runEdges n t
    | .fault r => .fault r
    | .refused r => .refused r

/-- A condition holds of the cycle before each of the next `n` edges from a state. -/
def alongRun (P : State → Bool) : Nat → State → Bool
  | 0, _ => true
  | n + 1, s =>
    P s && match step s with
      | .next t => alongRun P n t
      | .fault _ => true
      | .refused _ => true

/-- No reset is sampled at the next `n` edges. -/
def noReset (n : Nat) (s : State) : Bool := alongRun (fun u => !u.port.rst) n s

/-- The byte an instruction puts on the line, if it transmits (41_transmitter.md R76, R77). -/
def sentByte : Instr → Option Byte
  | .send idx ch val => some (wire idx ch.bits val)
  | .sendraw eb => some (wireCode eb)
  | .setibd _ => none
  | .rsvd => none

/-- The byte that starts on the line at the edge that ends this cycle, if a SEND or SENDRAW is accepted there. -/
def State.startingByte (s : State) : Option Byte :=
  match s.edge with
  | .accept c => sentByte (decode c)
  | .reset => none
  | .unlaunched => none
  | .run => none

/-- No frame starts at the next `n` edges. -/
def noNewFrame (n : Nat) (s : State) : Bool := alongRun (fun u => u.startingByte.isNone) n s

/-- A RSVD is accepted at the edge that ends this cycle (41_transmitter.md R79). -/
def State.acceptsReserved (s : State) : Bool :=
  match s.edge with
  | .accept c => decide (cmdOp c = 3#2)
  | .reset => false
  | .unlaunched => false
  | .run => false

/-- A reset that corrupts no byte: the host "waits for `cmd_ready` = 1 before asserting `rst`", so PHASE is
`IDLE` at the reset edge (70_reset_and_hazards.md R131). -/
def QuietReset (s : State) : Prop := s.port.rst = true → s.phase = .idle

/-- The integrator's duty: IBD at least as long as the pods need, a number in no source
(70_reset_and_hazards.md R128). -/
def LatchTimeMet (need : Nat) (s : State) : Prop := need ≤ s.ibd.toNat

/-- The bit rate `P_CLK_HZ / P_DIV` within about 2% of 9600 (70_reset_and_hazards.md R133, general knowledge
there; no rule depends on it; log 19). -/
def BaudWithinTolerance (p : Params) : Prop :=
  49 * (Config.baud * p.div) ≤ 50 * p.clkHz ∧ 50 * p.clkHz ≤ 51 * (Config.baud * p.div)

end Sys2Proof.Machine
end

