-- ==== Sys2Proof/Certificates/Slice0/Obligations.lean ====
section
/-! DEFINITION. The statements for the provers. SLET has no memory, so "every byte of memory" is empty in every frame
below; the wire log stands in its place (20_memory.md R31). -/

open Sys2Proof Sys2Proof.Machine

/-! ### Reset and launch -/

/-- What the first reset leaves: 70_reset_and_hazards.md R120 (its table) and 10_state.md R30. FRM, the input
ports and the model's own fields are not mentioned (log 4, log 5). -/
def Obligations.ResetLeavesStatedValues : Prop :=
  State.reset.ibd = 40#14 ∧ State.reset.err = false ∧ State.reset.phase = .idle ∧
  State.reset.txq = true ∧ State.reset.txd = true ∧
  State.reset.bit = 0 ∧ State.reset.bcnt = 0 ∧ State.reset.dcnt = 0 ∧ State.reset.pibd = 0#14 ∧
  State.reset.log = [] ∧ State.reset.txn = TxnState.initial ∧ State.reset.cmdReady = true

/-- A reset edge, from any state: 70_reset_and_hazards.md R120, with the log clause of R121 (the log at the first
reset of a run is in FirstResetStartsRun). FRM after it is a free value: no clause. -/
def Obligations.ResetEdgeLoadsResetValues : Prop :=
  ∀ s : State, s.port.rst = true →
    s.cmdReady = false ∧
    ∃ t, step s = .next t ∧
      t.ibd = 40#14 ∧ t.err = false ∧ t.phase = .idle ∧ t.txq = true ∧
      t.bit = 0 ∧ t.bcnt = 0 ∧ t.dcnt = 0 ∧ t.pibd = 0#14 ∧
      (s.launched = true → t.log = if s.phase = .idle then s.log else s.log ++ [.abort]) ∧
      t.errOut = false ∧ t.ibdQ = 40#14 ∧ t.txd = xor true s.params.txdInvert ∧
      t.cmdReady = !t.port.rst ∧
      t.encOut = encodeByte (cmdIdx t.port.cmdData) (cmdCh t.port.cmdData) (cmdByte t.port.cmdData) ∧
      t.wireOut = wireCode t.encOut ∧
      t.params = s.params

/-- A reset in FRAME or PAUSE cuts the byte: `Abort` comes right after the `Byte` event it cuts, the line is idle
from the next cycle, and what was left of the pause is not waited for (70_reset_and_hazards.md R121). -/
def Obligations.ResetCutsByteAndLogsAbort : Prop :=
  ∀ s : State, s.Inv → s.launched = true → s.port.rst = true → s.phase ≠ .idle →
    ∃ (l : List Event) (w : Byte), s.log = l ++ [.byte w s.pibd] ∧
      ∃ t, step s = .next t ∧ t.log = l ++ [.byte w s.pibd, .abort] ∧
        t.phase = .idle ∧ t.txq = true ∧ t.txd = xor true t.params.txdInvert ∧
        t.cmdReady = !t.port.rst

/-- Leaving reset: `cmd_ready` = 1 in the first cycle with `rst` = 0, and a command offered in it is accepted
at the next edge (70_reset_and_hazards.md R123). -/
def Obligations.FirstEdgeAfterResetAccepts : Prop :=
  ∀ s t : State, s.port.rst = true → step s = .next t → t.port.rst = false →
    t.cmdReady = true ∧
    (t.port.cmdValid = true → step t = exec (decode t.port.cmdData) t.takeInputs)

/-- Before the first reset a run is refused, whatever the registers hold; one edge with `rst` = 1 meets the
launch premise (70_reset_and_hazards.md R122). -/
def Obligations.RunWithoutResetIsRefused : Prop :=
  ∀ s : State, s.launched = false →
    (s.port.rst = false → step s = .refused .beforeFirstReset) ∧
    (s.port.rst = true → ∃ t, step s = .next t ∧ t.launched = true)

/-- The first reset edge starts the run in the initial transaction state of 10_state.md R30, whatever the
registers held; that the log is empty then is read from R30 (log 8). -/
def Obligations.FirstResetStartsRun : Prop :=
  ∀ s : State, s.launched = false → s.port.rst = true →
    ∃ t, step s = .next t ∧ t.txn = TxnState.initial ∧ t.phase = .idle ∧ t.cmdReady = !t.port.rst

/-- Reset has priority over an offered command, and no command is accepted while a byte is in progress: with
`rst` = 1 the next state is the same whatever is offered, but for the ports (60_exceptions.md R113). -/
def Obligations.ResetHasPriority : Prop :=
  (∀ (s : State) (p : Drive), s.port.rst = true → p.rst = true →
    s.cmdReady = false ∧ s.edge = .reset ∧
    ∃ t t', step s = .next t ∧ step { s with port := p } = .next t' ∧
      { t' with port := t.port, host := t.host } = t) ∧
  (∀ (s : State) (c : Word), s.edge = .accept c → s.port.rst = false ∧ s.phase = .idle)

/-! ### The invariant -/

/-- The invariant holds after reset: the values of 70_reset_and_hazards.md R120, and P_DIV and P_UNIT_CYCLES of at
least 1 (00_scope.md R5). -/
def Obligations.ResetStateMeetsInvariant : Prop := State.reset.Inv

/-- Every step from a state with the invariant keeps it: legal parameters (00_scope.md section 4), framing bits of
1, every `Abort` after a `Byte`, and a transmitter that agrees with PHASE and the last byte. That BIT and BCNT are 0
outside FRAME and DCNT is 0 outside PAUSE, which the invariant says too, is no rule of the spec (10_state.md R27 calls
the counters' encoding not architectural): it is the model's choice, log 9. -/
def Obligations.StepKeepsInvariant : Prop :=
  ∀ s t : State, s.Inv → step s = .next t → t.Inv

/-- No word stops SLET: from a launched state every run of any length answers a next state, and every
command has a next state (60_exceptions.md R110). -/
def Obligations.NoRunIsStopped : Prop :=
  (∀ (i : Instr) (s : State), ∃ t, exec i s = .next t) ∧
  (∀ (n : Nat) (s : State), s.launched = true → ∃ t, runEdges n s = .next t ∧ t.launched = true)

/-- The parameters are constant for the life of an instance: no run changes them (00_scope.md R6). -/
def Obligations.ParametersNeverChange : Prop :=
  ∀ (n : Nat) (s t : State), runEdges n s = .next t → t.params = s.params

/-! ### Acceptance -/

/-- A step runs the decoded instruction: with `cmd_valid` = 1 and `cmd_ready` = 1 it is `exec` of the decoded
word, at the state in which the host's next drive has come on the ports (how the host's drives move on is the
model's choice: log 3, log 4). -/
def Obligations.StepRunsAcceptedCommand : Prop :=
  ∀ s : State, s.launched = true → s.port.cmdValid = true → s.cmdReady = true →
    step s = exec (decode s.port.cmdData) s.takeInputs ∧
    (∀ i : Instr, s.port.cmdData = encode i → step s = exec i s.takeInputs) ∧
    s.takeInputs = { s with
      port := s.host.headD ⟨false, false, s.port.cmdData, false⟩
      host := s.host.tail }

/-- Acceptance happens exactly when `cmd_valid` and `cmd_ready` are 1 (in a launched run), takes the word then
on `cmd_data`, and is the only way the port's command inputs affect SLET: where neither of two states that
differ in the ports alone accepts, and both or neither is reset, their next states differ in the ports alone
(41_transmitter.md R75). -/
def Obligations.AcceptanceIsTheOnlyInput : Prop :=
  (∀ (s : State) (c : Word), s.launched = true →
    (s.edge = .accept c ↔ s.port.cmdValid = true ∧ s.cmdReady = true ∧ c = s.port.cmdData)) ∧
  (∀ (s : State) (c : Word), s.edge = .accept c → step s = exec (decode c) s.takeInputs) ∧
  (∀ (s t t' : State) (p : Drive), p.rst = s.port.rst →
    (∀ c, s.edge ≠ .accept c) → (∀ c, State.edge { s with port := p } ≠ .accept c) →
    step s = .next t → step { s with port := p } = .next t' →
      { t' with port := t.port, host := t.host } = t)

/-! ### The four commands -/

/-- SEND's effect at its accepting edge: the event with the encoded and transformed byte and the IBD of then,
the frame loaded and its start bit on the line (41_transmitter.md R76, R80, R82, R83;
BIT and BCNT: 10_state.md R27).
It is said for every state: that `exec` does not look at PHASE or `rst` is the model's form, log 12. -/
def Obligations.SendResult : Prop :=
  ∀ (idx : BitVec 2) (ch : Channel) (val : Byte) (s : State),
    exec (.send idx ch val) s = .next { s with
      log := s.log ++ [.byte (wireCode (encodeByte idx ch.bits val)) s.ibd]
      phase := .frame
      frm := 1#1 ++ wireCode (encodeByte idx ch.bits val) ++ 0#1
      bit := 0
      bcnt := s.params.div - 1
      pibd := s.ibd
      txq := false }

/-- SENDRAW's effect at its accepting edge (41_transmitter.md R77, R80, R82, R83; BIT and BCNT:
10_state.md R27).
It is said for every state: that `exec` does not look at PHASE or `rst` is the model's form, log 12. -/
def Obligations.SendrawResult : Prop :=
  ∀ (eb : Byte) (s : State),
    exec (.sendraw eb) s = .next { s with
      log := s.log ++ [.byte (wireCode eb) s.ibd]
      phase := .frame
      frm := 1#1 ++ wireCode eb ++ 0#1
      bit := 0
      bcnt := s.params.div - 1
      pibd := s.ibd
      txq := false }

/-- SETIBD's effect: IBD is N, every value as written, and nothing else (41_transmitter.md R78).
It is said for every state: that `exec` does not look at PHASE or `rst` is the model's form, log 12. -/
def Obligations.SetibdResult : Prop :=
  ∀ (n : Delay) (s : State), exec (.setibd n) s = .next { s with ibd := n }

/-- RSVD's effect: ERR is 1 and nothing else (41_transmitter.md R79).
It is said for every state: that `exec` does not look at PHASE or `rst` is the model's form, log 12. -/
def Obligations.RsvdResult : Prop :=
  ∀ s : State, exec .rsvd s = .next { s with err := true }

/-- Frame of SEND and SENDRAW: IBD, ERR, DCNT, the ports, the host's drives, the parameters and the model's own
fields are unchanged, and no earlier event of the log is. -/
def Obligations.SendFrame : Prop :=
  ∀ (i : Instr) (w : Byte) (s t : State), sentByte i = some w → exec i s = .next t →
    t.ibd = s.ibd ∧ t.err = s.err ∧ t.dcnt = s.dcnt ∧ t.port = s.port ∧ t.host = s.host ∧
    t.launched = s.launched ∧ t.params = s.params ∧ t.draws = s.draws ∧ s.log = t.log.dropLast

/-- Frame of SETIBD and RSVD: SETIBD changes IBD alone, RSVD changes ERR alone; PHASE, the line, the timers and
the log are unchanged by both. -/
def Obligations.RegisterCommandFrame : Prop :=
  ∀ (i : Instr) (s t : State), sentByte i = none → exec i s = .next t →
    (∀ n, i = .setibd n → t.err = s.err) ∧ (i = .rsvd → t.ibd = s.ibd) ∧
    t.phase = s.phase ∧ t.frm = s.frm ∧ t.bit = s.bit ∧ t.bcnt = s.bcnt ∧ t.dcnt = s.dcnt ∧
    t.pibd = s.pibd ∧ t.txq = s.txq ∧ t.log = s.log ∧ t.port = s.port ∧ t.host = s.host ∧
    t.launched = s.launched ∧ t.params = s.params ∧ t.draws = s.draws

/-- SENDRAW of an encoded byte is the SEND of its operands; SENDRAW ignores encoded bit 7
(41_transmitter.md R77).
It is said for every state: that `exec` does not look at PHASE or `rst` is the model's form, log 12. -/
def Obligations.SendrawOfEncodedByteIsSend : Prop :=
  (∀ (idx : BitVec 2) (ch : Channel) (val : Byte) (s : State),
    exec (.sendraw (encodeByte idx ch.bits val)) s = exec (.send idx ch val) s) ∧
  (∀ (eb : Byte) (s : State), exec (.sendraw (eb ^^^ 0x80#8)) s = exec (.sendraw eb) s)

/-- Two equal SETIBDs are one, two RSVDs are one, and two equal sending commands append two equal events
(20_memory.md R38). The clauses are said of `exec`, which
does not look at PHASE: in the third the second `exec` is at a state in FRAME, where SLET accepts nothing and its
answer is no behaviour of SLET but the effect that the command has when it is accepted. That is the model's
form, log 12. -/
def Obligations.RegisterCommandsAreIdempotent : Prop :=
  (∀ (n : Delay) (s t : State), exec (.setibd n) s = .next t → exec (.setibd n) t = .next t) ∧
  (∀ s t : State, exec .rsvd s = .next t → exec .rsvd t = .next t) ∧
  (∀ (i : Instr) (w : Byte) (s t u : State), sentByte i = some w →
    exec i s = .next t → exec i t = .next u → u.log = s.log ++ [.byte w s.ibd, .byte w s.ibd])

/-- SETIBD and RSVD complete at their accepting edge: PHASE stays IDLE, `txd` stays 1, `cmd_ready` stays 1
while `rst` is 0, the next command can be accepted at the next edge, and a SEND there latches the new IBD
(41_transmitter.md R85). -/
def Obligations.RegisterCommandsCompleteAtOnce : Prop :=
  ∀ (s : State) (c : Word), s.Inv → s.edge = .accept c → (cmdOp c = 2#2 ∨ cmdOp c = 3#2) →
    ∃ t, step s = .next t ∧
      t.ibd = (if cmdOp c = 2#2 then c.extractLsb' 0 14 else s.ibd) ∧
      t.err = (if cmdOp c = 3#2 then true else s.err) ∧
      t.ibdQ = t.ibd ∧ t.errOut = t.err ∧
      t.phase = .idle ∧ t.txq = true ∧ t.log = s.log ∧ t.cmdReady = !t.port.rst ∧
      (t.port.rst = false → t.port.cmdValid = true → t.edge = .accept t.port.cmdData ∧
        ∀ w, sentByte (decode t.port.cmdData) = some w →
          ∃ u, step t = .next u ∧ u.pibd = t.ibd ∧ u.log = s.log ++ [.byte w t.ibd])

/-! ### ERR and the wire log over runs -/

/-- The wire log is append-only: over any run of a launched machine, resets included, the earlier log stays a
prefix (20_memory.md R31). -/
def Obligations.WireLogOnlyGrows : Prop :=
  ∀ (n : Nat) (s t : State), s.launched = true → runEdges n s = .next t → s.log <+: t.log

/-- ERR, once set, stays set over any run without a reset (10_state.md R25). -/
def Obligations.ErrStaysUntilReset : Prop :=
  ∀ (n : Nat) (s t : State), noReset n s = true → runEdges n s = .next t → s.err = true → t.err = true

/-- ERR has a single cause, a reserved command accepted since the last reset, and no effect on any later
behaviour: a run from a state that differs in ERR alone differs in ERR alone (60_exceptions.md R111). -/
def Obligations.ErrHasOneCauseAndNoEffect : Prop :=
  (∀ (n : Nat) (s t : State), s.launched = true → s.err = false → runEdges n s = .next t → t.err = true →
    ∃ k u, k < n ∧ runEdges k s = .next u ∧ u.acceptsReserved = true ∧ noReset (n - k) u = true) ∧
  (∀ (n : Nat) (s t : State) (e : Bool), runEdges n s = .next t →
    ∃ e', runEdges n { s with err := e } = .next { t with err := e' })

/-! ### The cycle level -/

/-- The frame schedule: in cycle `a + t` for `t < 10 * P_DIV` after a sending command is accepted at edge `a`, PHASE
is FRAME and the line is at the level of frame bit `t div P_DIV`; at edge `a` PIBD takes IBD and FRM takes
`1, w, 0` (41_transmitter.md R83). `cmd_ready` is 0 and the registers and the log do not change. -/
def Obligations.FrameSchedule : Prop :=
  ∀ (s s1 : State) (w : Byte) (t : Nat), s.Inv → s.startingByte = some w → step s = .next s1 →
    t < 10 * s.params.div → noReset t s1 = true →
    s1.pibd = s.ibd ∧ s1.frm = 1#1 ++ w ++ 0#1 ∧
    ∃ u, runEdges t s1 = .next u ∧ u.phase = .frame ∧
      u.txq = (if t / s.params.div = 0 then false
        else if t / s.params.div ≤ 8 then w.getLsbD (t / s.params.div - 1) else true) ∧
      u.txd = xor u.txq s.params.txdInvert ∧ u.cmdReady = false ∧ u.pibd = s.ibd ∧ u.txn = s1.txn

/-- The pause schedule, with `P = PIBD * P_UNIT_CYCLES`: PHASE is PAUSE in cycles `a + 10 D` to `a + 10 D + P - 1` and
IDLE in cycle `a + 10 D + P`, the first with `cmd_ready` = 1 when `rst` = 0 (with `P = 0` there is no PAUSE cycle),
and the line is at 1 in every PAUSE and IDLE cycle (41_transmitter.md R84). PIBD, the registers and the log do
not change meanwhile, whatever the host offers (20_memory.md R40). -/
def Obligations.PauseSchedule : Prop :=
  (∀ (s s1 : State) (w : Byte) (t : Nat), s.Inv → s.startingByte = some w → step s = .next s1 →
    t ≤ 10 * s.params.div + s.ibd.toNat * s.params.unitCycles → noReset t s1 = true →
    ∃ u, runEdges t s1 = .next u ∧ u.pibd = s.ibd ∧ u.txn = s1.txn ∧
      (t < 10 * s.params.div + s.ibd.toNat * s.params.unitCycles → u.cmdReady = false) ∧
      (10 * s.params.div ≤ t → u.txq = true ∧
        (if t < 10 * s.params.div + s.ibd.toNat * s.params.unitCycles then u.phase = .pause
        else u.phase = .idle ∧ u.cmdReady = !u.port.rst))) ∧
  (∀ s : State, s.Inv → s.launched = true → (s.phase = .pause ∨ s.phase = .idle) → s.txq = true)

/-- The spacing guarantee: after a sending command accepted at edge `a`, any command accepted at a later edge
`a' = a + k + 1` has `k >= 10 D + P`, and until the next frame starts the line is at 1 from the end of the
first stop bit on: at least `P + 1` whole cycles (41_transmitter.md R86). -/
def Obligations.SpacingGuarantee : Prop :=
  ∀ (s s1 u : State) (w : Byte) (c : Word) (k : Nat), s.Inv → s.startingByte = some w → step s = .next s1 →
    noReset k s1 = true → noNewFrame k s1 = true → runEdges k s1 = .next u → u.edge = .accept c →
    10 * s.params.div + s.ibd.toNat * s.params.unitCycles ≤ k ∧
    ∀ j, 10 * s.params.div ≤ j → j ≤ k → ∃ v, runEdges j s1 = .next v ∧ v.txq = true

/-- SLET never transmits on its own: a frame begins only at an edge that accepts a SEND or SENDRAW, and an idle
machine to which nothing is offered stays idle, with its registers, its log and its line as they are, for
any number of cycles (41_transmitter.md R70, R86; that the host stays quiet then is the model's choice: log 4). -/
def Obligations.NoFrameWithoutCommand : Prop :=
  (∀ s t : State, step s = .next t → s.phase ≠ .frame → t.phase = .frame → ∃ w, s.startingByte = some w) ∧
  (∀ (n : Nat) (s : State), s.launched = true → s.phase = .idle → s.port.rst = false →
    s.port.cmdValid = false → s.host = [] →
    ∃ t, runEdges n s = .next t ∧ t.phase = .idle ∧ t.txq = s.txq ∧ t.txn = s.txn ∧ t.cmdReady = true)

/-- The line at rest: 1 in every IDLE and PAUSE cycle and after every reset edge; a 0 only inside a frame, as
the start bit or a data bit of value 0 (41_transmitter.md R87). -/
def Obligations.LineRestsAtMark : Prop :=
  (∀ s : State, s.Inv → s.launched = true → s.phase ≠ .frame → s.txq = true) ∧
  (∀ s : State, s.Inv → s.launched = true → s.txq = false →
    s.phase = .frame ∧ ∃ (l : List Event) (w : Byte), s.log = l ++ [.byte w s.pibd] ∧
      (s.bit = 0 ∨ (1 ≤ s.bit ∧ s.bit ≤ 8 ∧ w.getLsbD (s.bit - 1) = false))) ∧
  (∀ s t : State, s.port.rst = true → step s = .next t → t.txq = true)

/-- The cycle level refines the transaction level: each edge of a launched machine is a reset of the abstract
state, the step of the accepted word, or no change of it (00_scope.md R10, 10_state.md R30, 41_transmitter.md R73). -/
def Obligations.CycleRefinesTransaction : Prop :=
  ∀ s t : State, s.launched = true → step s = .next t →
    t.txn =
      if s.port.rst then s.txn.reset (decide (s.phase ≠ .idle))
      else if s.port.cmdValid && s.cmdReady then s.txn.step s.port.cmdData
      else s.txn

/-- Every command stream, offered word after word by a host that holds each until it is accepted, is carried
out in order, each word once, and has ended after the cycles that 70_reset_and_hazards.md R135 counts, with the
transaction level's result and `cmd_ready` = 1 (20_memory.md R39, R40). That it ends no sooner is
OfferedStreamEndsNoSooner. The held drives and the quiet host after the last of them are the model's (log 3, log 4,
log 22), and so are the rest values of BIT, BCNT and DCNT that the invariant of the last state holds (log 9). -/
def Obligations.OfferedStreamCompletes : Prop :=
  ∀ (c : Word) (cs : List Word) (s : State), s.Inv → s.launched = true → s.phase = .idle →
    s.port = .offer c → s.host = cs.map Drive.offer →
    ∃ t, runEdges (streamCycles s.params s.ibd (c :: cs)) s = .next t ∧
      t.txn = s.txn.run (c :: cs) ∧ t.runEnded = true ∧ t.host = [] ∧ t.Inv

/-- An offered command stream ends no sooner than the cycles that 70_reset_and_hazards.md R135 counts: after every
smaller number of edges the run goes on and has not ended (R137). With OfferedStreamCompletes: it takes exactly these
cycles. The held drives are the model's (log 3, log 22). -/
def Obligations.OfferedStreamEndsNoSooner : Prop :=
  ∀ (c : Word) (cs : List Word) (s : State), s.Inv → s.launched = true → s.phase = .idle →
    s.port = .offer c → s.host = cs.map Drive.offer →
    ∀ k, k < streamCycles s.params s.ibd (c :: cs) →
      ∃ u, runEdges k s = .next u ∧ u.runEnded = false

/-- The end of a run is final until a reset: from a launched state at which the run has ended, whatever quiet or
waiting cycles the host still lists, every number of edges leaves the observation (wire log, IBD, ERR) as it is and
the run ended, as long as no reset is listed (70_reset_and_hazards.md R137; that the host offers nothing after its
last drive is the model's choice: log 4). -/
def Obligations.RunEndIsFinal : Prop :=
  ∀ (n : Nat) (s : State), s.launched = true → s.runEnded = true → (∀ d ∈ s.host, d.rst = false) →
    ∃ t, runEdges n s = .next t ∧ t.txn = s.txn ∧ t.runEnded = true

/-- A command offered at any time waits for `cmd_ready`: from any launched state with the invariant in which it
is held on the port, in a frame or a pause too, it is accepted at the first edge whose cycle has `cmd_ready` = 1 and
at none before, after at most what is left of a frame and a pause; until then IBD, ERR and the log stay
(70_reset_and_hazards.md R125, R130, 41_transmitter.md R74, R75; the held drive is the model's: log 3, log 22). -/
def Obligations.HeldOfferWaitsForReady : Prop :=
  ∀ (i : Instr) (s : State), s.Inv → s.launched = true → s.port = .offer (encode i) →
    ∃ (k : Nat) (u : State), runEdges k s = .next u ∧
      k ≤ 10 * s.params.div + s.pibd.toNat * s.params.unitCycles ∧
      (∀ j, j < k → ∃ v, runEdges j s = .next v ∧ v.cmdReady = false ∧ v.port = s.port ∧ v.txn = s.txn) ∧
      u.cmdReady = true ∧ u.txn = s.txn ∧ step u = exec i u.takeInputs

/-! ### Encodings -/

/-- The fields of a command word (30_encoding.md R42, R45). -/
def Obligations.DecodeReadsFields : Prop :=
  ∀ c : Word,
    (c.extractLsb' 14 2 = 0#2 → ∃ ch : Channel, ch.bits = c.extractLsb' 8 2 ∧
      decode c = .send (c.extractLsb' 10 2) ch (c.extractLsb' 0 8)) ∧
    (c.extractLsb' 14 2 = 1#2 → decode c = .sendraw (c.extractLsb' 0 8)) ∧
    (c.extractLsb' 14 2 = 2#2 → decode c = .setibd (c.extractLsb' 0 14)) ∧
    (c.extractLsb' 14 2 = 3#2 → decode c = .rsvd)

/-- Every word lies in exactly one row of the opcode table, chosen by bits 15:14 alone, and the decoder takes
that row; no word stops the block (30_encoding.md R43). -/
def Obligations.EveryWordDecodesToOneRow : Prop :=
  (∀ c : Word, (opcodeTable.filter fun r => r.covers c).map OpcodeRow.mnemonic = [(decode c).mnemonic]) ∧
  (∀ c c' : Word, c.extractLsb' 14 2 = c'.extractLsb' 14 2 → (decode c).mnemonic = (decode c').mnemonic) ∧
  (∀ (c : Word) (s : State), ∃ t, exec (decode c) s = .next t) ∧
  (∀ (c : Word) (s : State), c.extractLsb' 14 2 = 3#2 → exec (decode c) s = .next { s with err := true })

/-- Ignored bits have no effect: words that differ in ignored bits alone decode alike, and a step that accepts
either gives the same state but for the ports; `enc_out` and `wire_out` read bits 11:0 alone, for every opcode
(30_encoding.md R44). -/
def Obligations.IgnoredBitsHaveNoEffect : Prop :=
  (∀ (c c' : Word) (s t : State),
    c &&& ~~~ignoredBits (decode c) = c' &&& ~~~ignoredBits (decode c) →
    decode c' = decode c ∧
    (s.port.cmdData = c → step s = .next t →
      ∃ t', step { s with port := { s.port with cmdData := c' } } = .next t' ∧
        { t' with port := t.port } = t)) ∧
  (∀ c c' : Word, c.extractLsb' 0 12 = c'.extractLsb' 0 12 →
    encOutOf c = encOutOf c' ∧ wireOutOf c = wireOutOf c')

/-- Decoding an encoded instruction gives it back, for every instruction and every operand. -/
def Obligations.DecodeEncodeRoundTrip : Prop := ∀ i : Instr, decode (encode i) = i

/-- Encoding a decoded word gives the word with its ignored bits cleared. -/
def Obligations.EncodeDecodeClearsIgnoredBits : Prop :=
  ∀ c : Word, encode (decode c) = c &&& ~~~ignoredBits (decode c)

/-- A few words, bit by bit from 30_encoding.md R42 and 95_test_vectors.md table T5. -/
def Obligations.TableWordsDecode : Prop :=
  decode 0b0000110101011010#16 = .send 3#2 .red 0x5A#8 ∧
  decode 0b0011000010000000#16 = .send 0#2 .intensity 0x80#8 ∧
  decode 0b0111111100010100#16 = .sendraw 0x14#8 ∧
  decode 0b1011111111111111#16 = .setibd 16383#14 ∧
  decode 0b1111111111111111#16 = .rsvd

/-! ### The encoder family -/

/-- `encode` places index, channel and value nibble, equals its second form, discards the low nibble, and gives
the source's example (40_encoder.md R60). -/
def Obligations.EncodePlacesFields : Prop :=
  (∀ (idx ch : BitVec 2) (val : Byte),
    (encodeByte idx ch val).extractLsb' 0 2 = idx ∧ (encodeByte idx ch val).extractLsb' 2 2 = ch ∧
    (encodeByte idx ch val).extractLsb' 4 4 = val.extractLsb' 4 4 ∧
    encodeByte idx ch val = (val &&& 0xF0#8) ||| (ch.setWidth 8 <<< 2) ||| idx.setWidth 8 ∧
    encodeByte idx ch val = encodeByte idx ch (val &&& 0xF0#8)) ∧
  encodeByte 0#2 0#2 0x80#8 = 0x80#8 ∧ (∀ idx ch : BitVec 2, (encodeByte idx ch 0xFF#8).extractLsb' 4 4 = 0xF#4)

/-- `wire_code` is the NOT of the shifted byte, with framing bit 1, bits 7:1 the inverted bits 6:0, bit 7 lost, and the
rule's values (40_encoder.md R61). -/
def Obligations.WireCodeShiftsAndInverts : Prop :=
  (∀ b : Byte, wireCode b = 0xFF#8 ^^^ (b <<< 1) ∧ wireCode b = 0xFF#8 ^^^ (b.extractLsb' 0 7 ++ 0#1) ∧
    (wireCode b).getLsbD 0 = true ∧ (wireCode b).extractLsb' 1 7 = ~~~(b.extractLsb' 0 7) ∧
    wireCode b = wireCode (b ^^^ 0x80#8)) ∧
  wireCode 0x00#8 = 0xFF#8 ∧ wireCode 0x80#8 = 0xFF#8 ∧ wireCode 0x7F#8 = 0x01#8 ∧
  wireCode 0xFF#8 = 0x01#8 ∧ wireCode 0x14#8 = 0xD7#8

/-- `wire` in its two closed forms; value bits 7 and 3:0 do not reach the line (40_encoder.md R62). -/
def Obligations.WireClosedForm : Prop :=
  (∀ (idx ch : BitVec 2) (val : Byte),
    wire idx ch val = 0xFF#8 ^^^ ((idx.setWidth 8 <<< 1) ||| (ch.setWidth 8 <<< 3) |||
      (((val >>> 4) &&& 7#8) <<< 5)) ∧
    wire idx ch val = 0x01#8 ||| ((~~~idx).setWidth 8 <<< 1) ||| ((~~~ch).setWidth 8 <<< 3) |||
      ((~~~(val >>> 4) &&& 7#8) <<< 5) ∧
    wire idx ch val = wire idx ch (val &&& 0x70#8) ∧
    wire 3#2 3#2 0x70#8 ≤ wire idx ch val ∧ wire idx ch val ≤ wire 0#2 0#2 0x00#8) ∧
  (∀ idx ch : BitVec 2, wire idx ch 0x80#8 = wire idx ch 0x00#8) ∧
  wire 3#2 3#2 0x70#8 = 0x01#8 ∧ wire 0#2 0#2 0x00#8 = 0xFF#8 ∧ wire 0#2 1#2 0x11#8 = 0xD7#8

/-- `decode_enc` inverts `encode` on index, channel and the top 4 value bits, and `encode` on values with low
nibble 0 is a bijection onto all bytes (40_encoder.md R63). -/
def Obligations.DecodeEncInvertsEncode : Prop :=
  (∀ b : Byte, decodeEnc b = (b.extractLsb' 0 2, b.extractLsb' 2 2, b.extractLsb' 4 4)) ∧
  (∀ (idx ch : BitVec 2) (val : Byte), decodeEnc (encodeByte idx ch val) = (idx, ch, val.extractLsb' 4 4)) ∧
  (∀ b : Byte, ∃ (idx ch : BitVec 2) (val : Byte), (val &&& 0x0F#8 = 0#8 ∧ encodeByte idx ch val = b) ∧
    ∀ (idx' ch' : BitVec 2) (val' : Byte), val' &&& 0x0F#8 = 0#8 → encodeByte idx' ch' val' = b →
      idx' = idx ∧ ch' = ch ∧ val' = val) ∧
  (∀ idx ch : BitVec 2, decodeEnc (encodeByte idx ch 0x0F#8) = (idx, ch, 0#4)) ∧
  decodeEnc 0x80#8 = (0#2, 0#2, 8#4)

/-- `decode_wire` recovers index, channel and value bits 6:4 of every byte SLET sends, and refuses exactly the
bytes with bit 0 = 0, which SLET never sends (40_encoder.md R64). -/
def Obligations.DecodeWireInvertsWire : Prop :=
  (∀ (idx ch : BitVec 2) (val : Byte), decodeWire (wire idx ch val) = some (idx, ch, val.extractLsb' 4 3)) ∧
  (∀ w : Byte, decodeWire w = none ↔ w.getLsbD 0 = false) ∧
  (∀ (i : Instr) (w : Byte), sentByte i = some w → w.getLsbD 0 = true) ∧
  (∀ w : Byte, w.getLsbD 0 = true →
    decodeWire w = some (~~~(w.extractLsb' 1 2), ~~~(w.extractLsb' 3 2), ~~~(w.extractLsb' 5 3))) ∧
  wire 0#2 0#2 0x00#8 = 0xFF#8 ∧ wire 0#2 0#2 0x80#8 = 0xFF#8 ∧
  decodeWire 0xFF#8 = some (0#2, 0#2, 0#3) ∧ decodeWire 0xD7#8 = some (0#2, 1#2, 1#3)

/-- The wire byte carries three bits of the value: two values give equal wire bytes exactly when their bits 6:4
agree; the two mask variants are equal on the wire and differ in encoded bit 7 (40_encoder.md R65). -/
def Obligations.WireCarriesThreeValueBits : Prop :=
  ∀ (idx ch : BitVec 2) (val val' : Byte),
    (wire idx ch val = wire idx ch val' ↔ (val >>> 4) &&& 7#8 = (val' >>> 4) &&& 7#8) ∧
    wire idx ch (val &&& 0x70#8) = wire idx ch (val &&& 0xFF#8) ∧
    (val.getLsbD 7 = true →
      encodeByte idx ch (val &&& 0x70#8) ^^^ encodeByte idx ch (val &&& 0xFF#8) = 0x80#8)

/-- The image of `wire_code` is the 128 bytes with bit 0 = 1, two encoded bytes to each; and the triples
(idx, ch, v3) stand one to one for them (40_encoder.md R66). -/
def Obligations.WireCodeImage : Prop :=
  (∀ w : Byte, w.getLsbD 0 = true ↔ ∃ b, wireCode b = w) ∧
  (∀ b b' : Byte, wireCode b = wireCode b' ↔ b' = b ∨ b' = b ^^^ 0x80#8) ∧
  (∀ w : Byte, w.getLsbD 0 = true → ∃ (idx ch : BitVec 2) (v : BitVec 3),
    wire idx ch (v.setWidth 8 <<< 4) = w ∧
    ∀ (idx' ch' : BitVec 2) (v' : BitVec 3), wire idx' ch' (v'.setWidth 8 <<< 4) = w →
      idx' = idx ∧ ch' = ch ∧ v' = v)

/-- The combinational outputs are the encoder applied to `cmd_data[11:0]`, whatever the rest of the state is; for a
SENDRAW the byte sent is not in general `wire_out` (10_state.md R29, with the word 0x4014 of table T5). -/
def Obligations.CombinationalOutputs : Prop :=
  ∀ s s' : State,
    s.encOut = encodeByte (s.port.cmdData.extractLsb' 10 2) (s.port.cmdData.extractLsb' 8 2)
      (s.port.cmdData.extractLsb' 0 8) ∧
    s.wireOut = wireCode s.encOut ∧
    (s'.port.cmdData = s.port.cmdData → s'.encOut = s.encOut ∧ s'.wireOut = s.wireOut) ∧
    wireOutOf 0x4014#16 = 0xDF#8 ∧ sentByte (decode 0x4014#16) = some 0xD7#8

/-! ### Wall-clock figures, assembler and reference host (not hardware) -/

/-- Wall-clock figures with `P_DIV = P_CLK_HZ / 9600` exactly: one bit, one frame, one time unit, and a tick of the
four pods, whose 16 SENDs offered without a gap take 16 frames, 16 pauses and 16 idle cycles
(70_reset_and_hazards.md R136, 41_transmitter.md R88). -/
def Obligations.WallClockFigures : Prop :=
  ∀ (p : Params) (ibd : Delay) (r : List Pod), p.wf = true → p.clkHz = 9600 * p.div → Registry.wf r = true →
    bitSeconds p = 1 / 9600 ∧ frameSeconds p = 10 / 9600 ∧
    unitSeconds p = (p.unitCycles : Rat) / (p.clkHz : Rat) ∧
    tickMinSeconds p ibd = 16 * (10 / 9600) + 16 * (ibd.toNat * unitSeconds p) + 16 * (1 / (p.clkHz : Rat)) ∧
    (streamCycles p ibd ((tickCommands r).map encode) : Rat) / (p.clkHz : Rat) = tickMinSeconds p ibd

/-- The assembled words, and the refusal of every operand out of its range (30_encoding.md R52). -/
def Obligations.AssemblerWords : Prop :=
  ∀ (r : List Pod) (i c v : Nat),
    (i < 4 → c < 4 → v < 256 →
      assemble r (.send i (.number c) v) = .ok [BitVec.ofNat 16 (i * 1024 + c * 256 + v)]) ∧
    (v < 256 → assemble r (.sendraw v) = .ok [BitVec.ofNat 16 (0x4000 + v)]) ∧
    (v < 16384 → assemble r (.setibd v) = .ok [BitVec.ofNat 16 (0x8000 + v)]) ∧
    (v < 16384 → assemble r (.rsvd (some v)) = .ok [BitVec.ofNat 16 (0xC000 + v)]) ∧
    assemble r (.rsvd none) = .ok [0xC000#16] ∧
    (4 ≤ i ∨ 4 ≤ c ∨ 256 ≤ v → ∃ e, assemble r (.send i (.number c) v) = .error e) ∧
    (256 ≤ v → assemble r (.sendraw v) = .error (.encodedByteOutOfRange v)) ∧
    (16384 ≤ v → assemble r (.setibd v) = .error (.delayOutOfRange v)) ∧
    (16384 ≤ v → assemble r (.rsvd (some v)) = .error (.reservedBitsOutOfRange v))

/-- SENDPOD expands to the four SENDs of its pod, in channel order, with the masked values
(30_encoding.md R53, 45_host_sequence.md R94). -/
def Obligations.SendpodExpansion : Prop :=
  ∀ (p : BitVec 2) (bright color : Nat),
    sendPod p bright color =
      [.send p .intensity (BitVec.ofNat 8 (bright % 256)),
       .send p .red (BitVec.ofNat 8 (color / 65536 % 256)),
       .send p .green (BitVec.ofNat 8 (color / 256 % 256)),
       .send p .blue (BitVec.ofNat 8 (color % 256))]

/-- What a tick's read of a pod can see: exactly the pods that have, in each field, the stored value or the value
of a write in progress to that field, in any combination (45_host_sequence.md R97). That the choice among them is
the argument `seen` is the model's: log 15. -/
def Obligations.PodReadIsStoredOrTorn : Prop :=
  ∀ (h : RefHost) (p q : Pod),
    (∃ seen, h.readPod p seen = q) ↔
      q.index = p.index ∧
      (q.brightness = p.brightness ∨ PodWrite.brightness p.index q.brightness ∈ h.writing) ∧
      (q.color = p.color ∨ PodWrite.color p.index q.color ∈ h.writing)

/-- One tick under any input: its sending commands are SENDPOD for each pod read; the pods read are those of the
registry, in order, each read once, from the host as it stands when its group starts; and the registry's members and
the scheduler's state stay (45_host_sequence.md R92, R95, R97, R98). That the choice among the values a read may see is
the argument `seen`, with the stored pair where it is absent or not allowed, is the model's: log 15. -/
def Obligations.TickSendsPodsInOrder : Prop :=
  ∀ (h : RefHost) (t : TickInput) (ps : List Pod), h.scheduler = .running →
    ps = (h.sample (List.range h.registry.length) t.groups).2 →
    ((h.tick t).2.map Offer.instr).filter (fun i => (sentByte i).isSome) = tickCommands ps ∧
    ps.map Pod.index = h.registry.map Pod.index ∧
    (∀ (k : Nat) (g : RefHost), k < h.registry.length →
      g = h.events ((t.groups.take (k + 1)).flatMap GroupInput.events) →
      ∃ p, g.registry[k]? = some p ∧ ps[k]? = some (g.readPod p (t.groups.getD k {}).seen)) ∧
    (h.tick t).1.registry.map Pod.index = h.registry.map Pod.index ∧
    (h.tick t).1.scheduler = .running

/-- The next tick reflects the most recent values: with no write in progress, writes made before a tick, after the
last one or before its first read, are what the tick sends, whatever the reads are asked to see; a tick without
inputs sends the registry and leaves the host as it was; an Idle host issues nothing (45_host_sequence.md R95, R97,
R98, R101). Two things in it are the model's and no rule of the spec: that every command is offered at once
(`Offer.now`) is what the model does where no gap is given, log 29; and that, where no `seen` is given, a read sees the
stored pair also while writes are in progress (the second and the third clause), is the model's default, log 15. -/
def Obligations.TickReflectsLatestValues : Prop :=
  (∀ (h : RefHost) (ws : List PodWrite) (seen : Option (Nat × Nat)) (seens : List (Option (Nat × Nat))),
    h.scheduler = .running → h.writing = [] →
    (h.tick { groups := { events := ws.map .store, seen := seen } :: seens.map fun x => { seen := x } }).2 =
      (tickCommands (ws.foldl (fun r w => r.map (Pod.store w)) h.registry)).map Offer.now) ∧
  (∀ (h : RefHost) (ws : List PodWrite), h.scheduler = .running →
    ((h.tick { atEnd := ws.map .store }).1.tick {}).2 =
      (tickCommands (ws.foldl (fun r w => r.map (Pod.store w)) h.registry)).map Offer.now) ∧
  (∀ h : RefHost, h.scheduler = .running → h.tick {} = (h, (tickCommands h.registry).map Offer.now)) ∧
  (∀ (h : RefHost) (t : TickInput), h.scheduler = .idle → (h.tick t).2 = [])

/-- `set_brightness` twice with one value is once, for every later tick under any input; the last value wins, and so
for `set_color` (45_host_sequence.md R96, R91). -/
def Obligations.RepeatedPodWriteIsOne : Prop :=
  (∀ (h : RefHost) (i : BitVec 2) (x : Nat) (t : TickInput),
    ((h.setBrightness i x).setBrightness i x).tick t = (h.setBrightness i x).tick t) ∧
  (∀ (h : RefHost) (i : BitVec 2) (x y : Nat), (h.setBrightness i x).setBrightness i y = h.setBrightness i y) ∧
  (∀ (h : RefHost) (i : BitVec 2) (x y : Nat), (h.setColor i x).setColor i y = h.setColor i y)

/-- The update interval: `max(x, 500)`, values from 500 on kept as given, default 1000 (45_host_sequence.md R99). -/
def Obligations.UpdateIntervalFloor : Prop :=
  (∀ (x : ℕ+) (h : RefHost), (h.setUpdateInterval x).interval = max (x : Nat) 500) ∧
  (∀ (x : ℕ+) (h : RefHost), 500 ≤ (x : Nat) → (h.setUpdateInterval x).interval = x) ∧
  (∀ p0 p1 p2 p3 : Nat × Nat, (RefHost.create p0 p1 p2 p3).interval = 1000)
end

