-- ==== Sys2Proof/Laws/Encoding.lean ====
section
/-! SUPPORT. The fields of a word the encoder writes, and the channel selector's two directions. -/

namespace Sys2Proof

@[simp] theorem channelOf_bits (c : Channel) : channelOf c.bits = c := by cases c <;> rfl

theorem bits_channelOf (b : BitVec 2) : (channelOf b).bits = b := by
  revert b; decide

/-- The opcode an instruction's row has (30_encoding.md R42). -/
def Instr.opcode : Instr → BitVec 2
  | .send _ _ _ => 0#2
  | .sendraw _ => 1#2
  | .setibd _ => 2#2
  | .rsvd => 3#2

end Sys2Proof
end

