-- ==== Sys2Proof/Laws/HostStream.lean ====
section
/-! SUPPORT. What the reference host's operations can change: one lemma per field per operation, what a read of a
pod can see, and what SETIBDs between the commands of a tick leave in place. -/

namespace Sys2Proof.Machine

/-- No write changes the index of a pod (45_host_sequence.md R91). -/
@[simp] theorem Pod.store_index (w : PodWrite) (p : Pod) : (p.store w).index = p.index := by
  cases w <;> simp only [Pod.store] <;> split <;> rfl

@[simp] theorem RefHost.store_scheduler (w : PodWrite) (h : RefHost) : (h.store w).scheduler = h.scheduler := rfl
@[simp] theorem RefHost.store_interval (w : PodWrite) (h : RefHost) : (h.store w).interval = h.interval := rfl
@[simp] theorem RefHost.store_writing (w : PodWrite) (h : RefHost) : (h.store w).writing = h.writing := rfl
@[simp] theorem RefHost.store_registry (w : PodWrite) (h : RefHost) :
    (h.store w).registry = h.registry.map (Pod.store w) := rfl

/-- A write stored leaves the registry's members and their order (45_host_sequence.md R92). -/
@[simp] theorem RefHost.store_indices (w : PodWrite) (h : RefHost) :
    (h.store w).registry.map Pod.index = h.registry.map Pod.index := by
  simp [Function.comp_def]

@[simp] theorem RefHost.setUpdateInterval_registry (x : ℕ+) (h : RefHost) :
    (h.setUpdateInterval x).registry = h.registry := rfl
@[simp] theorem RefHost.setUpdateInterval_scheduler (x : ℕ+) (h : RefHost) :
    (h.setUpdateInterval x).scheduler = h.scheduler := rfl
@[simp] theorem RefHost.setUpdateInterval_writing (x : ℕ+) (h : RefHost) :
    (h.setUpdateInterval x).writing = h.writing := rfl
@[simp] theorem RefHost.activate_registry (h : RefHost) : h.activate.registry = h.registry := rfl
@[simp] theorem RefHost.activate_interval (h : RefHost) : h.activate.interval = h.interval := rfl
@[simp] theorem RefHost.activate_writing (h : RefHost) : h.activate.writing = h.writing := rfl
@[simp] theorem RefHost.activate_scheduler (h : RefHost) : h.activate.scheduler = .running := rfl

/-- The end of a write in progress changes nothing, or stores the write and takes it from the list. -/
theorem RefHost.finishWrite_cases (k : Nat) (h : RefHost) :
    h.finishWrite k = h ∨ ∃ w, h.writing[k]? = some w ∧
      h.finishWrite k = { h.store w with writing := h.writing.eraseIdx k } := by
  unfold RefHost.finishWrite
  cases hk : h.writing[k]? with
  | none => exact .inl rfl
  | some w => exact .inr ⟨w, rfl, rfl⟩

/-- No event changes the registry's members or their order (45_host_sequence.md R92). -/
@[simp] theorem RefHost.event_indices (h : RefHost) (e : HostEvent) :
    (h.event e).registry.map Pod.index = h.registry.map Pod.index := by
  cases e with
  | store w => exact h.store_indices w
  | beginWrite w => rfl
  | finishWrite k =>
    rcases h.finishWrite_cases k with e | ⟨w, -, e⟩ <;> simp only [RefHost.event, e]
    exact h.store_indices w
  | setInterval x => rfl

/-- No event changes the scheduler's state (45_host_sequence.md R98). -/
@[simp] theorem RefHost.event_scheduler (h : RefHost) (e : HostEvent) : (h.event e).scheduler = h.scheduler := by
  cases e with
  | store w => rfl
  | beginWrite w => rfl
  | finishWrite k => rcases h.finishWrite_cases k with e | ⟨w, -, e⟩ <;> simp [RefHost.event, e]
  | setInterval x => rfl

@[simp] theorem RefHost.events_nil (h : RefHost) : h.events [] = h := rfl
@[simp] theorem RefHost.events_cons (h : RefHost) (e : HostEvent) (es : List HostEvent) :
    h.events (e :: es) = (h.event e).events es := rfl

@[simp] theorem RefHost.events_indices (h : RefHost) (es : List HostEvent) :
    (h.events es).registry.map Pod.index = h.registry.map Pod.index := by
  induction es generalizing h with
  | nil => rfl
  | cons e es ih => simp [ih]

@[simp] theorem RefHost.events_scheduler (h : RefHost) (es : List HostEvent) :
    (h.events es).scheduler = h.scheduler := by
  induction es generalizing h with
  | nil => rfl
  | cons e es ih => simp [ih]

theorem RefHost.events_append (h : RefHost) (es es' : List HostEvent) :
    h.events (es ++ es') = (h.events es).events es' := by simp [RefHost.events]

/-- A read of a pod sees the stored pod, or an allowed pair of values. -/
theorem RefHost.readPod_cases (h : RefHost) (p : Pod) (seen : Option (Nat × Nat)) :
    h.readPod p seen = p ∨ ∃ b c, seen = some (b, c) ∧ h.readPod p seen = ⟨p.index, b, c⟩ ∧
      Pod.readDuring h.writing p ⟨p.index, b, c⟩ = true := by
  cases seen with
  | none => exact .inl rfl
  | some bc =>
    simp only [RefHost.readPod]
    split
    · exact .inr ⟨_, _, rfl, rfl, by assumption⟩
    · exact .inl rfl

@[simp] theorem RefHost.readPod_none (h : RefHost) (p : Pod) : h.readPod p none = p := rfl

@[simp] theorem RefHost.readPod_index (h : RefHost) (p : Pod) (seen : Option (Nat × Nat)) :
    (h.readPod p seen).index = p.index := by
  rcases h.readPod_cases p seen with e | ⟨b, c, -, e, -⟩ <;> rw [e]

/-- With no write in progress a read sees the stored pod, whatever it is asked to see. -/
theorem RefHost.readPod_of_no_write (h : RefHost) (hw : h.writing = []) (p : Pod) (seen : Option (Nat × Nat)) :
    h.readPod p seen = p := by
  rcases h.readPod_cases p seen with e | ⟨b, c, -, e, hr⟩
  · exact e
  · simp only [Pod.readDuring, hw, List.not_mem_nil, decide_false, Bool.or_false, Bool.and_eq_true,
      decide_eq_true_eq] at hr
    rw [e, hr.1.2, hr.2]

@[simp] theorem RefHost.sample_nil (h : RefHost) (gs : List GroupInput) : h.sample [] gs = (h, []) := rfl

/-- The reads of a tick keep the registry's members, their order and the scheduler. -/
theorem RefHost.sample_keeps (ks : List Nat) (h : RefHost) (gs : List GroupInput) :
    (h.sample ks gs).1.registry.map Pod.index = h.registry.map Pod.index ∧
    (h.sample ks gs).1.scheduler = h.scheduler := by
  induction ks generalizing h gs with
  | nil => exact ⟨rfl, rfl⟩
  | cons k ks ih => simp [RefHost.sample, ih]

/-- Every command of a SENDPOD sends a byte. -/
theorem sendPod_sends (p : BitVec 2) (bright color : Nat) : ∀ i ∈ sendPod p bright color, (sentByte i).isSome := by
  simp [sendPod, sentByte]

/-- Every command of a tick sends a byte. -/
theorem tickCommands_sends (r : List Pod) : ∀ i ∈ tickCommands r, (sentByte i).isSome := by
  intro i hi
  obtain ⟨p, -, hp⟩ := List.mem_flatMap.1 hi
  exact sendPod_sends _ _ _ i hp

@[simp] theorem IbdCall.offer_instr (c : IbdCall) : c.offer.instr = .setibd c.n := rfl
@[simp] theorem IbdCall.offer_quiet (c : IbdCall) : c.offer.quiet = c.quiet := rfl
@[simp] theorem Offer.now_instr (i : Instr) : (Offer.now i).instr = i := rfl

@[simp] theorem offerAll_nil : offerAll [] = [] := rfl
@[simp] theorem offerAll_append (os os' : List Offer) : offerAll (os ++ os') = offerAll os ++ offerAll os' := by
  simp [offerAll]

/-- Commands offered at once are driven one after the other, with nothing between. -/
theorem offerAll_now (is : List Instr) : offerAll (is.map Offer.now) = is.map fun i => Drive.offer (encode i) := by
  induction is with
  | nil => rfl
  | cons i is ih => exact congrArg (List.cons _) ih

@[simp] theorem withIbds_nil (is : List Instr) : withIbds is [] [] = is.map Offer.now := by
  induction is with
  | nil => rfl
  | cons i is ih => simp [withIbds, ih, Offer.now]

/-- SETIBDs between sending commands leave those commands and their order. -/
theorem withIbds_sends (is : List Instr) (gaps : List Nat) (ns : List (List IbdCall))
    (hs : ∀ i ∈ is, (sentByte i).isSome) :
    ((withIbds is gaps ns).map Offer.instr).filter (fun i => (sentByte i).isSome) = is := by
  induction is generalizing gaps ns with
  | nil => rfl
  | cons i is ih =>
    have hi : (sentByte i).isSome := hs i (by simp)
    have hset : ∀ l : List IbdCall,
        ((l.map IbdCall.offer).map Offer.instr).filter (fun i => (sentByte i).isSome) = [] := by
      intro l; simp [sentByte, List.filter_eq_nil_iff]
    simp only [withIbds, List.map_append, List.filter_append, hset, List.nil_append, List.map_cons, List.filter_cons,
      hi, if_true, ih gaps.tail ns.tail fun j hj => hs j (by simp [hj])]

end Sys2Proof.Machine
end

