-- ==== Sys2Proof/Laws/State.lean ====
section
/-! SUPPORT. One lemma per field per update of State, each true by unfolding the update once. -/

namespace Sys2Proof.Machine

/-! ### startFrame -/

@[simp] theorem startFrame_ibd (w : Byte) (s : State) : (s.startFrame w).ibd = s.ibd := rfl
@[simp] theorem startFrame_err (w : Byte) (s : State) : (s.startFrame w).err = s.err := rfl
@[simp] theorem startFrame_phase (w : Byte) (s : State) : (s.startFrame w).phase = .frame := rfl
@[simp] theorem startFrame_frm (w : Byte) (s : State) : (s.startFrame w).frm = frameOf w := rfl
@[simp] theorem startFrame_bit (w : Byte) (s : State) : (s.startFrame w).bit = 0 := rfl
@[simp] theorem startFrame_bcnt (w : Byte) (s : State) : (s.startFrame w).bcnt = s.params.div - 1 := rfl
@[simp] theorem startFrame_dcnt (w : Byte) (s : State) : (s.startFrame w).dcnt = s.dcnt := rfl
@[simp] theorem startFrame_pibd (w : Byte) (s : State) : (s.startFrame w).pibd = s.ibd := rfl
@[simp] theorem startFrame_log (w : Byte) (s : State) : (s.startFrame w).log = s.log ++ [.byte w s.ibd] := rfl
@[simp] theorem startFrame_port (w : Byte) (s : State) : (s.startFrame w).port = s.port := rfl
@[simp] theorem startFrame_host (w : Byte) (s : State) : (s.startFrame w).host = s.host := rfl
@[simp] theorem startFrame_launched (w : Byte) (s : State) : (s.startFrame w).launched = s.launched := rfl
@[simp] theorem startFrame_params (w : Byte) (s : State) : (s.startFrame w).params = s.params := rfl
@[simp] theorem startFrame_draws (w : Byte) (s : State) : (s.startFrame w).draws = s.draws := rfl

/-- The line level at the start of a frame is the start bit (30_encoding.md R50). -/
@[simp] theorem startFrame_txq (w : Byte) (s : State) : (s.startFrame w).txq = false := by
  simp only [State.startFrame, frameOf, BitVec.getLsbD_append]; rfl

/-! ### setIbd -/

@[simp] theorem setIbd_ibd (n : Delay) (s : State) : (s.setIbd n).ibd = n := rfl
@[simp] theorem setIbd_err (n : Delay) (s : State) : (s.setIbd n).err = s.err := rfl
@[simp] theorem setIbd_phase (n : Delay) (s : State) : (s.setIbd n).phase = s.phase := rfl
@[simp] theorem setIbd_frm (n : Delay) (s : State) : (s.setIbd n).frm = s.frm := rfl
@[simp] theorem setIbd_bit (n : Delay) (s : State) : (s.setIbd n).bit = s.bit := rfl
@[simp] theorem setIbd_bcnt (n : Delay) (s : State) : (s.setIbd n).bcnt = s.bcnt := rfl
@[simp] theorem setIbd_dcnt (n : Delay) (s : State) : (s.setIbd n).dcnt = s.dcnt := rfl
@[simp] theorem setIbd_pibd (n : Delay) (s : State) : (s.setIbd n).pibd = s.pibd := rfl
@[simp] theorem setIbd_txq (n : Delay) (s : State) : (s.setIbd n).txq = s.txq := rfl
@[simp] theorem setIbd_log (n : Delay) (s : State) : (s.setIbd n).log = s.log := rfl
@[simp] theorem setIbd_port (n : Delay) (s : State) : (s.setIbd n).port = s.port := rfl
@[simp] theorem setIbd_host (n : Delay) (s : State) : (s.setIbd n).host = s.host := rfl
@[simp] theorem setIbd_launched (n : Delay) (s : State) : (s.setIbd n).launched = s.launched := rfl
@[simp] theorem setIbd_params (n : Delay) (s : State) : (s.setIbd n).params = s.params := rfl
@[simp] theorem setIbd_draws (n : Delay) (s : State) : (s.setIbd n).draws = s.draws := rfl
/-! ### setErr -/

@[simp] theorem setErr_ibd (s : State) : s.setErr.ibd = s.ibd := rfl
@[simp] theorem setErr_err (s : State) : s.setErr.err = true := rfl
@[simp] theorem setErr_phase (s : State) : s.setErr.phase = s.phase := rfl
@[simp] theorem setErr_frm (s : State) : s.setErr.frm = s.frm := rfl
@[simp] theorem setErr_bit (s : State) : s.setErr.bit = s.bit := rfl
@[simp] theorem setErr_bcnt (s : State) : s.setErr.bcnt = s.bcnt := rfl
@[simp] theorem setErr_dcnt (s : State) : s.setErr.dcnt = s.dcnt := rfl
@[simp] theorem setErr_pibd (s : State) : s.setErr.pibd = s.pibd := rfl
@[simp] theorem setErr_txq (s : State) : s.setErr.txq = s.txq := rfl
@[simp] theorem setErr_log (s : State) : s.setErr.log = s.log := rfl
@[simp] theorem setErr_port (s : State) : s.setErr.port = s.port := rfl
@[simp] theorem setErr_host (s : State) : s.setErr.host = s.host := rfl
@[simp] theorem setErr_launched (s : State) : s.setErr.launched = s.launched := rfl
@[simp] theorem setErr_params (s : State) : s.setErr.params = s.params := rfl
@[simp] theorem setErr_draws (s : State) : s.setErr.draws = s.draws := rfl
/-! ### driveBit -/

@[simp] theorem driveBit_ibd (k : Nat) (s : State) : (s.driveBit k).ibd = s.ibd := rfl
@[simp] theorem driveBit_err (k : Nat) (s : State) : (s.driveBit k).err = s.err := rfl
@[simp] theorem driveBit_phase (k : Nat) (s : State) : (s.driveBit k).phase = s.phase := rfl
@[simp] theorem driveBit_frm (k : Nat) (s : State) : (s.driveBit k).frm = s.frm := rfl
@[simp] theorem driveBit_bit (k : Nat) (s : State) : (s.driveBit k).bit = k := rfl
@[simp] theorem driveBit_bcnt (k : Nat) (s : State) : (s.driveBit k).bcnt = s.params.div - 1 := rfl
@[simp] theorem driveBit_dcnt (k : Nat) (s : State) : (s.driveBit k).dcnt = s.dcnt := rfl
@[simp] theorem driveBit_pibd (k : Nat) (s : State) : (s.driveBit k).pibd = s.pibd := rfl
@[simp] theorem driveBit_txq (k : Nat) (s : State) : (s.driveBit k).txq = s.frm.getLsbD k := rfl
@[simp] theorem driveBit_log (k : Nat) (s : State) : (s.driveBit k).log = s.log := rfl
@[simp] theorem driveBit_port (k : Nat) (s : State) : (s.driveBit k).port = s.port := rfl
@[simp] theorem driveBit_host (k : Nat) (s : State) : (s.driveBit k).host = s.host := rfl
@[simp] theorem driveBit_launched (k : Nat) (s : State) : (s.driveBit k).launched = s.launched := rfl
@[simp] theorem driveBit_params (k : Nat) (s : State) : (s.driveBit k).params = s.params := rfl
@[simp] theorem driveBit_draws (k : Nat) (s : State) : (s.driveBit k).draws = s.draws := rfl
/-! ### resetEdge -/

@[simp] theorem resetEdge_ibd (s : State) : s.resetEdge.ibd = Config.ibdReset := rfl
@[simp] theorem resetEdge_err (s : State) : s.resetEdge.err = false := rfl
@[simp] theorem resetEdge_phase (s : State) : s.resetEdge.phase = .idle := rfl
@[simp] theorem resetEdge_frm (s : State) : s.resetEdge.frm = Config.freeFrm s.draws := rfl
@[simp] theorem resetEdge_bit (s : State) : s.resetEdge.bit = 0 := rfl
@[simp] theorem resetEdge_bcnt (s : State) : s.resetEdge.bcnt = 0 := rfl
@[simp] theorem resetEdge_dcnt (s : State) : s.resetEdge.dcnt = 0 := rfl
@[simp] theorem resetEdge_pibd (s : State) : s.resetEdge.pibd = 0#14 := rfl
@[simp] theorem resetEdge_txq (s : State) : s.resetEdge.txq = true := rfl
@[simp] theorem resetEdge_log (s : State) : s.resetEdge.log = s.logAfterReset := rfl
@[simp] theorem resetEdge_port (s : State) : s.resetEdge.port = s.port := rfl
@[simp] theorem resetEdge_host (s : State) : s.resetEdge.host = s.host := rfl
@[simp] theorem resetEdge_launched (s : State) : s.resetEdge.launched = true := rfl
@[simp] theorem resetEdge_params (s : State) : s.resetEdge.params = s.params := rfl
@[simp] theorem resetEdge_draws (s : State) : s.resetEdge.draws = s.draws + 1 := rfl
/-! ### takeInputs -/

@[simp] theorem takeInputs_ibd (s : State) : s.takeInputs.ibd = s.ibd := by
  unfold State.takeInputs; split <;> [rfl; split <;> rfl]
@[simp] theorem takeInputs_err (s : State) : s.takeInputs.err = s.err := by
  unfold State.takeInputs; split <;> [rfl; split <;> rfl]
@[simp] theorem takeInputs_phase (s : State) : s.takeInputs.phase = s.phase := by
  unfold State.takeInputs; split <;> [rfl; split <;> rfl]
@[simp] theorem takeInputs_frm (s : State) : s.takeInputs.frm = s.frm := by
  unfold State.takeInputs; split <;> [rfl; split <;> rfl]
@[simp] theorem takeInputs_bit (s : State) : s.takeInputs.bit = s.bit := by
  unfold State.takeInputs; split <;> [rfl; split <;> rfl]
@[simp] theorem takeInputs_bcnt (s : State) : s.takeInputs.bcnt = s.bcnt := by
  unfold State.takeInputs; split <;> [rfl; split <;> rfl]
@[simp] theorem takeInputs_dcnt (s : State) : s.takeInputs.dcnt = s.dcnt := by
  unfold State.takeInputs; split <;> [rfl; split <;> rfl]
@[simp] theorem takeInputs_pibd (s : State) : s.takeInputs.pibd = s.pibd := by
  unfold State.takeInputs; split <;> [rfl; split <;> rfl]
@[simp] theorem takeInputs_txq (s : State) : s.takeInputs.txq = s.txq := by
  unfold State.takeInputs; split <;> [rfl; split <;> rfl]
@[simp] theorem takeInputs_log (s : State) : s.takeInputs.log = s.log := by
  unfold State.takeInputs; split <;> [rfl; split <;> rfl]
@[simp] theorem takeInputs_launched (s : State) : s.takeInputs.launched = s.launched := by
  unfold State.takeInputs; split <;> [rfl; split <;> rfl]
@[simp] theorem takeInputs_params (s : State) : s.takeInputs.params = s.params := by
  unfold State.takeInputs; split <;> [rfl; split <;> rfl]
@[simp] theorem takeInputs_draws (s : State) : s.takeInputs.draws = s.draws := by
  unfold State.takeInputs; split <;> [rfl; split <;> rfl]
/-! ### endFrame, frameEdge, pauseEdge, runEdge: the fields the timers never touch -/

@[simp] theorem endFrame_ibd (s : State) : s.endFrame.ibd = s.ibd := by
  unfold State.endFrame; split <;> rfl
@[simp] theorem endFrame_err (s : State) : s.endFrame.err = s.err := by
  unfold State.endFrame; split <;> rfl
@[simp] theorem endFrame_frm (s : State) : s.endFrame.frm = s.frm := by
  unfold State.endFrame; split <;> rfl
@[simp] theorem endFrame_pibd (s : State) : s.endFrame.pibd = s.pibd := by
  unfold State.endFrame; split <;> rfl
@[simp] theorem endFrame_log (s : State) : s.endFrame.log = s.log := by
  unfold State.endFrame; split <;> rfl
@[simp] theorem endFrame_port (s : State) : s.endFrame.port = s.port := by
  unfold State.endFrame; split <;> rfl
@[simp] theorem endFrame_host (s : State) : s.endFrame.host = s.host := by
  unfold State.endFrame; split <;> rfl
@[simp] theorem endFrame_launched (s : State) : s.endFrame.launched = s.launched := by
  unfold State.endFrame; split <;> rfl
@[simp] theorem endFrame_params (s : State) : s.endFrame.params = s.params := by
  unfold State.endFrame; split <;> rfl
@[simp] theorem endFrame_draws (s : State) : s.endFrame.draws = s.draws := by
  unfold State.endFrame; split <;> rfl
@[simp] theorem frameEdge_ibd (s : State) : s.frameEdge.ibd = s.ibd := by
  unfold State.frameEdge; split <;> [rfl; split <;> simp]
@[simp] theorem frameEdge_err (s : State) : s.frameEdge.err = s.err := by
  unfold State.frameEdge; split <;> [rfl; split <;> simp]
@[simp] theorem frameEdge_frm (s : State) : s.frameEdge.frm = s.frm := by
  unfold State.frameEdge; split <;> [rfl; split <;> simp]
@[simp] theorem frameEdge_pibd (s : State) : s.frameEdge.pibd = s.pibd := by
  unfold State.frameEdge; split <;> [rfl; split <;> simp]
@[simp] theorem frameEdge_log (s : State) : s.frameEdge.log = s.log := by
  unfold State.frameEdge; split <;> [rfl; split <;> simp]
@[simp] theorem frameEdge_port (s : State) : s.frameEdge.port = s.port := by
  unfold State.frameEdge; split <;> [rfl; split <;> simp]
@[simp] theorem frameEdge_host (s : State) : s.frameEdge.host = s.host := by
  unfold State.frameEdge; split <;> [rfl; split <;> simp]
@[simp] theorem frameEdge_launched (s : State) : s.frameEdge.launched = s.launched := by
  unfold State.frameEdge; split <;> [rfl; split <;> simp]
@[simp] theorem frameEdge_params (s : State) : s.frameEdge.params = s.params := by
  unfold State.frameEdge; split <;> [rfl; split <;> simp]
@[simp] theorem frameEdge_draws (s : State) : s.frameEdge.draws = s.draws := by
  unfold State.frameEdge; split <;> [rfl; split <;> simp]
@[simp] theorem pauseEdge_ibd (s : State) : s.pauseEdge.ibd = s.ibd := by
  unfold State.pauseEdge; split <;> rfl
@[simp] theorem pauseEdge_err (s : State) : s.pauseEdge.err = s.err := by
  unfold State.pauseEdge; split <;> rfl
@[simp] theorem pauseEdge_frm (s : State) : s.pauseEdge.frm = s.frm := by
  unfold State.pauseEdge; split <;> rfl
@[simp] theorem pauseEdge_pibd (s : State) : s.pauseEdge.pibd = s.pibd := by
  unfold State.pauseEdge; split <;> rfl
@[simp] theorem pauseEdge_log (s : State) : s.pauseEdge.log = s.log := by
  unfold State.pauseEdge; split <;> rfl
@[simp] theorem pauseEdge_port (s : State) : s.pauseEdge.port = s.port := by
  unfold State.pauseEdge; split <;> rfl
@[simp] theorem pauseEdge_host (s : State) : s.pauseEdge.host = s.host := by
  unfold State.pauseEdge; split <;> rfl
@[simp] theorem pauseEdge_launched (s : State) : s.pauseEdge.launched = s.launched := by
  unfold State.pauseEdge; split <;> rfl
@[simp] theorem pauseEdge_params (s : State) : s.pauseEdge.params = s.params := by
  unfold State.pauseEdge; split <;> rfl
@[simp] theorem pauseEdge_draws (s : State) : s.pauseEdge.draws = s.draws := by
  unfold State.pauseEdge; split <;> rfl
@[simp] theorem runEdge_ibd (s : State) : s.runEdge.ibd = s.ibd := by
  unfold State.runEdge; split <;> simp
@[simp] theorem runEdge_err (s : State) : s.runEdge.err = s.err := by
  unfold State.runEdge; split <;> simp
@[simp] theorem runEdge_frm (s : State) : s.runEdge.frm = s.frm := by
  unfold State.runEdge; split <;> simp
@[simp] theorem runEdge_pibd (s : State) : s.runEdge.pibd = s.pibd := by
  unfold State.runEdge; split <;> simp
@[simp] theorem runEdge_log (s : State) : s.runEdge.log = s.log := by
  unfold State.runEdge; split <;> simp
@[simp] theorem runEdge_port (s : State) : s.runEdge.port = s.port := by
  unfold State.runEdge; split <;> simp
@[simp] theorem runEdge_host (s : State) : s.runEdge.host = s.host := by
  unfold State.runEdge; split <;> simp
@[simp] theorem runEdge_launched (s : State) : s.runEdge.launched = s.launched := by
  unfold State.runEdge; split <;> simp
@[simp] theorem runEdge_params (s : State) : s.runEdge.params = s.params := by
  unfold State.runEdge; split <;> simp
@[simp] theorem runEdge_draws (s : State) : s.runEdge.draws = s.draws := by
  unfold State.runEdge; split <;> simp

end Sys2Proof.Machine
end

