-- ==== Sys2Proof/Laws/Ops.lean ====
section
/-! SUPPORT. For each shared operation, once, everything it can do; and the cases of a step. Later proofs cite
these instead of unfolding the operations. -/

namespace Sys2Proof.Machine

theorem cmdReady_iff (s : State) : s.cmdReady = true ↔ s.port.rst = false ∧ s.phase = .idle := by
  simp [State.cmdReady]

/-- The host's drives move on in one of two ways, and nothing but `port` and `host` changes. -/
theorem takeInputs_cases (s : State) :
    ((s.port.hold = true ∧ s.port.rst = false ∧ s.cmdReady = false) ∧ s.takeInputs = s) ∨
    (¬(s.port.hold = true ∧ s.port.rst = false ∧ s.cmdReady = false) ∧
      s.takeInputs = { s with
        port := s.host.headD ⟨false, false, s.port.cmdData, false⟩
        host := s.host.tail }) := by
  unfold State.takeInputs
  split
  · rename_i h; exact .inl ⟨by simpa [and_assoc] using h, rfl⟩
  · rename_i h
    refine .inr ⟨by simpa [and_assoc] using h, ?_⟩
    split <;> rename_i heq <;> simp [heq]

/-- An edge inside a frame: a cycle less, the next bit, or the end of the frame. -/
theorem frameEdge_cases (s : State) :
    (0 < s.bcnt ∧ s.frameEdge = { s with bcnt := s.bcnt - 1 }) ∨
    (s.bcnt = 0 ∧ s.bit < 9 ∧ s.frameEdge = s.driveBit (s.bit + 1)) ∨
    (s.bcnt = 0 ∧ 9 ≤ s.bit ∧ s.frameEdge = s.endFrame) := by
  unfold State.frameEdge
  split
  · exact .inl ⟨‹_›, rfl⟩
  · split
    · exact .inr (.inl ⟨by omega, ‹_›, rfl⟩)
    · exact .inr (.inr ⟨by omega, by omega, rfl⟩)

/-- The end of a frame: a pause of at least one cycle, or `IDLE` at once. -/
theorem endFrame_cases (s : State) :
    (0 < pauseCycles s.params s.pibd ∧ s.endFrame =
      { s with phase := .pause, bit := 0, bcnt := 0, dcnt := pauseCycles s.params s.pibd, txq := true }) ∨
    (pauseCycles s.params s.pibd = 0 ∧ s.endFrame =
      { s with phase := .idle, bit := 0, bcnt := 0, dcnt := 0, txq := true }) := by
  unfold State.endFrame
  split
  · exact .inl ⟨‹_›, rfl⟩
  · exact .inr ⟨by omega, rfl⟩

/-- An edge inside a pause: a cycle less, or `IDLE`. -/
theorem pauseEdge_cases (s : State) :
    (1 < s.dcnt ∧ s.pauseEdge = { s with dcnt := s.dcnt - 1 }) ∨
    (s.dcnt ≤ 1 ∧ s.pauseEdge = { s with phase := .idle, dcnt := 0 }) := by
  unfold State.pauseEdge
  split
  · exact .inl ⟨‹_›, rfl⟩
  · exact .inr ⟨by omega, rfl⟩

/-- An edge at which only the timers move, by PHASE. -/
theorem runEdge_cases (s : State) :
    (s.phase = .idle ∧ s.runEdge = s) ∨ (s.phase = .frame ∧ s.runEdge = s.frameEdge) ∨
    (s.phase = .pause ∧ s.runEdge = s.pauseEdge) := by
  cases h : s.phase <;> simp [State.runEdge, h]

/-- The log after a reset edge: emptied at the launch, kept in `IDLE`, with an `Abort` otherwise. -/
theorem logAfterReset_cases (s : State) :
    (s.launched = false ∧ s.logAfterReset = []) ∨
    (s.launched = true ∧ s.phase = .idle ∧ s.logAfterReset = s.log) ∨
    (s.launched = true ∧ s.phase ≠ .idle ∧ s.logAfterReset = s.log ++ [.abort]) := by
  cases h : s.launched <;> cases hp : s.phase <;> simp [State.logAfterReset, h, hp]

/-- What decides the kind of an edge (41_transmitter.md R75, 60_exceptions.md R113). -/
theorem edge_cases (s : State) :
    (s.port.rst = true ∧ s.edge = .reset) ∨
    (s.port.rst = false ∧ s.launched = false ∧ s.edge = .unlaunched) ∨
    (s.port.rst = false ∧ s.launched = true ∧ s.phase = .idle ∧ s.port.cmdValid = true ∧
      s.edge = .accept s.port.cmdData) ∨
    (s.port.rst = false ∧ s.launched = true ∧ ¬(s.phase = .idle ∧ s.port.cmdValid = true) ∧
      s.edge = .run) := by
  unfold State.edge State.cmdReady
  cases hr : s.port.rst <;> cases hl : s.launched <;> cases hv : s.port.cmdValid <;>
    cases hp : s.phase <;> simp

/-- Every instruction has a next state (60_exceptions.md R110). -/
theorem exec_next (i : Instr) (s : State) : ∃ t, exec i s = .next t := by
  cases i <;> exact ⟨_, rfl⟩

/-- What a step can do: a reset edge, the refusal before the first reset, an accepted command, or the
timers alone. -/
theorem step_cases (s : State) :
    (s.port.rst = true ∧ step s = .next s.takeInputs.resetEdge) ∨
    (s.port.rst = false ∧ s.launched = false ∧ step s = .refused .beforeFirstReset) ∨
    (s.port.rst = false ∧ s.launched = true ∧ s.phase = .idle ∧ s.port.cmdValid = true ∧
      step s = exec (decode s.port.cmdData) s.takeInputs) ∨
    (s.port.rst = false ∧ s.launched = true ∧ ¬(s.phase = .idle ∧ s.port.cmdValid = true) ∧
      step s = .next s.takeInputs.runEdge) := by
  rcases edge_cases s with ⟨h, e⟩ | ⟨h, hl, e⟩ | ⟨h, hl, hp, hv, e⟩ | ⟨h, hl, hn, e⟩
  · exact .inl ⟨h, by simp [step, e]⟩
  · exact .inr (.inl ⟨h, hl, by simp [step, e]⟩)
  · exact .inr (.inr (.inl ⟨h, hl, hp, hv, by simp [step, e]⟩))
  · exact .inr (.inr (.inr ⟨h, hl, hn, by simp [step, e]⟩))

/-- A run of any machine whose first step answers a next state. -/
theorem core_run_next (M : Host.Core) (n : Nat) (s t : M.State) (h : M.step s = .next t) :
    M.run (n + 1) s = M.run n t := by rw [Host.Core.run, h]

/-- A run of any machine whose first step is refused. -/
theorem core_run_refused (M : Host.Core) (n : Nat) (s : M.State) (r : M.Refusal)
    (h : M.step s = .refused r) : M.run (n + 1) s = .refused r := by rw [Host.Core.run, h]

/-- `runEdges` is the host's run of this machine. -/
theorem runEdges_eq_core_run (n : Nat) (s : State) : runEdges n s = Host.Core.run Sys2Proof.core n s := by
  induction n generalizing s with
  | zero => rfl
  | succ n ih =>
    unfold runEdges
    cases h : step s with
    | next t => exact (ih t).trans (core_run_next Sys2Proof.core n s t h).symm
    | fault r => cases r
    | refused r => exact (core_run_refused Sys2Proof.core n s r h).symm

/-- A word placed for the next fetch is the word the next step accepts (log 10, log 11). -/
theorem step_withFetchWord (s : State) (nbits w : Nat) :
    step (s.withFetchWord nbits w) =
      exec (decode (BitVec.ofNat 16 (w % 2 ^ nbits))) (s.withFetchWord nbits w).takeInputs := rfl

end Sys2Proof.Machine
end

