-- ==== Sys2Proof/Laws/PerInstr.lean ====
section
/-! SUPPORT. The family TableRow: the word the encoder writes for an instruction lies in the row of the opcode
table that bears its mnemonic, with its ignored bits 0 (30_encoding.md R42, R52). -/

namespace Sys2Proof.Laws.TableRow

/-- The encoded word lies in the instruction's own row and its ignored bits are 0. -/
def Statement (i : Instr) : Prop :=
  cmdOp (encode i) = i.opcode ∧ encode i &&& ignoredBits i = 0#16 ∧
    ∃ r ∈ opcodeTable, r.mnemonic = i.mnemonic ∧ encode i &&& r.mask = r.pattern

theorem send (idx : BitVec 2) (ch : Channel) (val : Byte) : Statement (.send idx ch val) := by
  refine ⟨?_, ?_, ⟨"SEND", 0x0000#16, 0xC000#16⟩, by simp [opcodeTable], rfl, ?_⟩ <;>
    apply BitVec.eq_of_getLsbD_eq <;> intro k hk <;> interval_cases k <;>
    simp [cmdOp, encode, Instr.opcode, ignoredBits]

theorem sendraw (eb : Byte) : Statement (.sendraw eb) := by
  refine ⟨?_, ?_, ⟨"SENDRAW", 0x4000#16, 0xC000#16⟩, by simp [opcodeTable], rfl, ?_⟩ <;>
    apply BitVec.eq_of_getLsbD_eq <;> intro k hk <;> interval_cases k <;>
    simp [cmdOp, encode, Instr.opcode, ignoredBits]

theorem setibd (n : Delay) : Statement (.setibd n) := by
  refine ⟨?_, ?_, ⟨"SETIBD", 0x8000#16, 0xC000#16⟩, by simp [opcodeTable], rfl, ?_⟩ <;>
    apply BitVec.eq_of_getLsbD_eq <;> intro k hk <;> interval_cases k <;>
    simp [cmdOp, encode, Instr.opcode, ignoredBits]

theorem rsvd : Statement .rsvd :=
  ⟨rfl, rfl, ⟨"RSVD", 0xC000#16, 0xC000#16⟩, by simp [opcodeTable], rfl, rfl⟩

end Sys2Proof.Laws.TableRow
end

