-- ==== Sys2Proof/Laws/Run.lean ====
section
/-! SUPPORT. Runs of many edges: how they split and compose, conditions along a run, and what a busy edge does. -/

namespace Sys2Proof.Machine

theorem runEdges_succ (n : Nat) (s t u : State) (h : runEdges n s = .next t) (h' : step t = .next u) :
    runEdges (n + 1) s = .next u := by
  induction n generalizing s with
  | zero => simp [runEdges] at h; subst h; simp [runEdges, h']
  | succ n ih =>
    unfold runEdges at h ⊢
    cases hs : step s with
    | next v => rw [hs] at h; exact ih v h
    | fault r => cases r
    | refused r => rw [hs] at h; simp at h

/-- A run of `n + 1` edges is a run of `n` and one step. -/
theorem runEdges_split (n : Nat) (s u : State) (h : runEdges (n + 1) s = .next u) :
    ∃ t, runEdges n s = .next t ∧ step t = .next u := by
  induction n generalizing s with
  | zero =>
    refine ⟨s, rfl, ?_⟩
    unfold runEdges at h
    cases hs : step s with
    | next v => rw [hs] at h; simpa [runEdges] using h
    | fault r => cases r
    | refused r => rw [hs] at h; simp at h
  | succ n ih =>
    unfold runEdges at h
    cases hs : step s with
    | next v =>
      rw [hs] at h
      obtain ⟨t, h1, h2⟩ := ih v h
      exact ⟨t, by unfold runEdges; rw [hs]; exact h1, h2⟩
    | fault r => cases r
    | refused r => rw [hs] at h; simp at h

theorem runEdges_add (n m : Nat) (s t u : State) (h : runEdges n s = .next t)
    (h' : runEdges m t = .next u) : runEdges (n + m) s = .next u := by
  induction m generalizing u with
  | zero => simp [runEdges] at h'; subst h'; exact h
  | succ m ih =>
    obtain ⟨v, h1, h2⟩ := runEdges_split m t u h'
    exact runEdges_succ _ _ _ _ (ih v h1) h2

/-- A condition along `n + 1` edges holds along `n` and in the state before the last edge. -/
theorem alongRun_split (P : State → Bool) (n : Nat) (s : State) (h : alongRun P (n + 1) s = true) :
    alongRun P n s = true ∧ ∀ t, runEdges n s = .next t → P t = true := by
  induction n generalizing s with
  | zero =>
    simp [alongRun] at h ⊢
    intro t ht; simp [runEdges] at ht; subst ht; exact h.1
  | succ n ih =>
    unfold alongRun at h
    simp only [Bool.and_eq_true] at h
    cases hs : step s with
    | next v =>
      rw [hs] at h
      obtain ⟨h1, h2⟩ := ih v h.2
      refine ⟨by unfold alongRun; simp [hs, h1, h.1], fun t ht => h2 t ?_⟩
      unfold runEdges at ht; rw [hs] at ht; exact ht
    | fault r => cases r
    | refused r =>
      refine ⟨by unfold alongRun; simp [hs, h.1], fun t ht => ?_⟩
      unfold runEdges at ht; rw [hs] at ht; simp at ht

theorem alongRun_succ (P : State → Bool) (n : Nat) (s t : State) (h : alongRun P n s = true)
    (ht : runEdges n s = .next t) (hP : P t = true) : alongRun P (n + 1) s = true := by
  induction n generalizing s with
  | zero => simp [runEdges] at ht; subst ht; cases h : step s <;> simp [alongRun, hP, h]
  | succ n ih =>
    unfold alongRun at h ⊢
    unfold runEdges at ht
    cases hs : step s with
    | next v => rw [hs] at h ht; simp only [Bool.and_eq_true] at h ⊢; exact ⟨h.1, ih v h.2 ht⟩
    | fault r => cases r
    | refused r => rw [hs] at ht; simp at ht

theorem alongRun_le (P : State → Bool) (n m : Nat) (s : State) (hm : m ≤ n)
    (h : alongRun P n s = true) : alongRun P m s = true := by
  induction n with
  | zero => obtain rfl : m = 0 := by omega
            rfl
  | succ n ih =>
    rcases Nat.lt_or_ge m (n + 1) with hk | hk
    · exact ih (by omega) (alongRun_split P n s h).1
    · obtain rfl : m = n + 1 := by omega
      exact h

/-- A run has ended exactly when `cmd_ready` is 1 and no drive, present or listed, offers a command. -/
theorem runEnded_iff (s : State) :
    s.runEnded = true ↔ s.cmdReady = true ∧ s.port.cmdValid = false ∧ ∀ d ∈ s.host, d.cmdValid = false := by
  simp [State.runEnded, State.commandsLeft]

/-- While a byte is in progress and no reset is sampled, only the timers move. -/
theorem step_busy (s : State) (hl : s.launched = true) (hr : s.port.rst = false) (hp : s.phase ≠ .idle) :
    step s = .next s.takeInputs.runEdge := by
  rcases step_cases s with ⟨h, e⟩ | ⟨h, h2, e⟩ | ⟨h, h2, h3, h4, e⟩ | ⟨h, h2, h3, e⟩
  · simp_all
  · simp_all
  · simp_all
  · exact e

/-- The frame register holds the levels of the frame, bit by bit (30_encoding.md R50). -/
theorem frameOf_level (w : Byte) (k : Nat) (hk : k ≤ 9) : (frameOf w).getLsbD k = frameLevel w k := by
  unfold frameOf frameLevel
  interval_cases k <;> revert w <;> decide

theorem logWfFrom_append_byte (b : Bool) (l : List Event) (w : Byte) (p : Delay)
    (h : logWfFrom b l = true) (hw : w.getLsbD 0 = true) : logWfFrom b (l ++ [.byte w p]) = true := by
  induction l generalizing b with
  | nil => simp only [List.nil_append, logWfFrom, hw]; rfl
  | cons e l ih =>
    cases e <;> simp only [List.cons_append, logWfFrom, Bool.and_eq_true] at h ⊢ <;> exact ⟨h.1, ih _ h.2⟩

theorem logWfFrom_append_abort (b : Bool) (l : List Event) (w : Byte) (p : Delay)
    (h : logWfFrom b (l ++ [.byte w p]) = true) :
    logWfFrom b (l ++ [.byte w p] ++ [.abort]) = true := by
  induction l generalizing b with
  | nil => simpa [logWfFrom] using h
  | cons e l ih =>
    cases e <;> simp only [List.cons_append, logWfFrom, Bool.and_eq_true] at h ⊢ <;> exact ⟨h.1, ih _ h.2⟩

/-- The transaction step of a word, read through the decoder. -/
theorem txn_step_decode (S : TxnState) (c : Word) : S.step c = match decode c with
    | .send idx ch val => { S with log := S.log ++ [.byte (wire idx ch.bits val) S.ibd] }
    | .sendraw eb => { S with log := S.log ++ [.byte (wireCode eb) S.ibd] }
    | .setibd n => { S with ibd := n }
    | .rsvd => { S with err := true } := by
  have ops : ∀ b : BitVec 2, b = 0#2 ∨ b = 1#2 ∨ b = 2#2 ∨ b = 3#2 := by decide
  rcases ops (cmdOp c) with h | h | h | h <;> simp [decode, TxnState.step, h, bits_channelOf]

end Sys2Proof.Machine
end

