-- ==== Sys2Proof/Tests/Slice0.lean ====
section
/-! SUPPORT. Tests. Expected values are from spec/95_test_vectors.md (tables T1 to T5, sections 2.3 to 2.5) or written out bit by bit
from spec/30_encoding.md R42; a `witness_` theorem shows that the hypotheses of the obligation it names can be met. -/

namespace Sys2Proof.Tests

open Sys2Proof Sys2Proof.Machine

/-! ### Small states -/

/-- Idle after reset, with the parameters of a small instance. -/
def idle : State := { State.reset with params := ⟨19200, 1, 1, false⟩ }

/-- The same with IBD = `n` and a held offer of `c`, then of `cs`. -/
def offering (n : Delay) (c : Word) (cs : List Word) : State :=
  { idle with ibd := n, port := .offer c, host := cs.map Drive.offer }

/-- In the first cycle of a frame. -/
def inFrame : State :=
  { idle with
    phase := .frame
    frm := frameOf 0xFF#8
    log := [.byte 0xFF#8 40#14]
    pibd := 40#14
    txq := false }

/-- In the last cycle of a pause. -/
def inPause : State :=
  { idle with phase := .pause, log := [.byte 0xFF#8 40#14], pibd := 40#14, dcnt := 1 }

/-- A state before the first reset. -/
def unlaunched : State := { inFrame with launched := false, err := true }

/-- The same state with the given drive on the ports. -/
def driven (s : State) (d : Drive) : State := { s with port := d }

/-- The state after `n` edges. -/
def after (n : Nat) (s : State) : State :=
  match runEdges n s with
  | .next t => t
  | .fault _ => s
  | .refused _ => s

theorem idle_inv : idle.Inv := ⟨by decide, fun _ => ⟨by decide, by decide⟩⟩
theorem offering_inv (n : Delay) (c : Word) (cs : List Word) : (offering n c cs).Inv :=
  ⟨rfl, fun _ => ⟨rfl, rfl⟩⟩
theorem inFrame_inv (d : Drive) : (driven inFrame d).Inv := ⟨rfl, fun _ => ⟨rfl, rfl⟩⟩
theorem inPause_inv (d : Drive) : (driven inPause d).Inv := ⟨rfl, fun _ => ⟨rfl, rfl⟩⟩

/-! ### Well-formedness: an ill-formed term for each check (30_encoding.md R52, 00_scope.md R5) -/

theorem test_refuses_index : (AsmLine.send 4 (.number 0) 0).check = .error (.indexOutOfRange 4) := by decide
theorem test_refuses_channel : (AsmLine.send 3 (.number 4) 0).check = .error (.channelOutOfRange 4) := by decide
theorem test_refuses_value : (AsmLine.send 3 (.name .blue) 256).check = .error (.valueOutOfRange 256) := by decide
theorem test_refuses_encoded_byte : (AsmLine.sendraw 256).check = .error (.encodedByteOutOfRange 256) := by decide
theorem test_refuses_delay : (AsmLine.setibd 16384).check = .error (.delayOutOfRange 16384) := by decide
theorem test_refuses_reserved_bits :
    (AsmLine.rsvd (some 16384)).check = .error (.reservedBitsOutOfRange 16384) := by decide
theorem test_refuses_sendpod_index : (AsmLine.sendpod 4 0 0).check = .error (.indexOutOfRange 4) := by decide
theorem test_accepts_largest_operands : (AsmLine.send 3 (.number 3) 255).wf = true ∧
    (AsmLine.setibd 16383).wf = true ∧ (AsmLine.rsvd none).wf = true ∧ AsmLine.tick.wf = true := by decide
theorem test_refuses_zero_divider : Params.wf ⟨19200, 0, 1, false⟩ = false := by decide
theorem test_refuses_zero_unit : Params.wf ⟨19200, 1, 0, false⟩ = false := by decide
theorem test_refuses_registry_out_of_order :
    Registry.wf [⟨1#2, 0, 0⟩, ⟨0#2, 0, 0⟩, ⟨2#2, 0, 0⟩, ⟨3#2, 0, 0⟩] = false := by decide
theorem test_refuses_wide_word : decodeBits 17 0 = .error (.widerThanACommandWord 17) := by decide

/-! ### Decoding: one constructor each, bit by bit from 30_encoding.md R42 (words of table T5) -/

theorem test_decode_send : decode 0b0000110101011010#16 = .send 3#2 .red 0x5A#8 := by decide
theorem test_decode_send_ignored_bits : decode 0b0011000010000000#16 = .send 0#2 .intensity 0x80#8 := by decide
theorem test_decode_sendraw : decode 0b0111111100010100#16 = .sendraw 0x14#8 := by decide
theorem test_decode_setibd : decode 0b1011111111111110#16 = .setibd 16382#14 := by decide
theorem test_decode_rsvd : decode 0b1100000000000000#16 = .rsvd ∧ decode 0b1111111111111111#16 = .rsvd := by decide
theorem test_encode_words : encode (.send 3#2 .red 0x5A#8) = 0x0D5A#16 ∧ encode (.sendraw 0xA6#8) = 0x40A6#16 ∧
    encode (.setibd 5#14) = 0x8005#16 ∧ encode .rsvd = 0xC000#16 := by decide
theorem test_decode_table_word : decodeTableWord 16 0x09A5 = some (.send 2#2 .red 0xA5#8) := by decide

/-! ### The encoder family (tables T1, T3, T4) -/

theorem test_encode_byte_mixed : encodeByte 1#2 2#2 0x5A#8 = 0x59#8 ∧ encodeByte 2#2 1#2 0xA5#8 = 0xA6#8 := by decide
theorem test_wire_code_alternating : wireCode 0x55#8 = 0x55#8 ∧ wireCode 0xAA#8 = 0xAB#8 := by decide
theorem test_wire_of_scenario : wire 0#2 2#2 0x22#8 = 0xAF#8 ∧ wire 0#2 3#2 0x33#8 = 0x87#8 := by decide
theorem test_decode_wire : decodeWire 0x8B#8 = some (2#2, 2#2, 3#3) ∧ decodeWire 0xFE#8 = none := by decide

/-! ### The meanings, one step each (table T5 and sections 2.3, 2.4) -/

theorem test_send_event : (after 1 (offering 40#14 0x0D5A#16 [])).log = [.byte 0x51#8 40#14] := by decide
theorem test_send_keeps_registers : (after 1 (offering 40#14 0x3080#16 [])).txn = ⟨40#14, false, [.byte 0xFF#8 40#14]⟩ := by
  decide
theorem test_sendraw_event : (after 1 (offering 7#14 0x7F14#16 [])).log = [.byte 0xD7#8 7#14] := by decide
theorem test_sendraw_start_bit : (after 1 (offering 40#14 0x4014#16 [])).outputs =
    ⟨false, false, false, 40#14, 0x10#8, 0xDF#8⟩ := by decide
theorem test_setibd_largest : (after 1 (offering 40#14 0xBFFF#16 [])).txn = ⟨16383#14, false, []⟩ := by decide
theorem test_setibd_stays_ready : (after 1 (offering 40#14 0x8000#16 [])).cmdReady = true := by decide
theorem test_rsvd_sets_err : (after 1 (offering 40#14 0xFFFF#16 [])).txn = ⟨40#14, true, []⟩ := by decide
theorem test_rsvd_stays_ready : (after 1 (offering 40#14 0xC000#16 [])).cmdReady = true := by decide
theorem test_reset_cuts_frame : (after 1 (driven inFrame .reset)).log = [.byte 0xFF#8 40#14, .abort] := by decide
theorem test_pause_ends : (after 1 inPause).phase = .idle := by decide
theorem test_fetched_word_runs_from_reset :
    (after 1 (State.reset.withFetchWord 16 0x8005)).ibd = 5#14 ∧
    (after 1 (State.reset.withFetchWord 16 0x4014)).log = [.byte 0xD7#8 40#14] := by decide

/-! ### Assembler and reference host (section 2.5, table P3) -/

theorem test_parse_line : parseLine ['S', 'E', 'N', 'D', ' ', '2', ',', 'R', ',', ' ', '0', 'x', 'A', '5', ';', 'x'] =
    .ok (some (.send 2 (.name .red) 0xA5)) := by decide
theorem test_channel_bytes : channelByteOf 0xFFABCDEF .red = some 0xAB ∧ channelByteOf 0xFFABCDEF .blue = some 0xEF := by decide
theorem test_sendpod_words : (sendPod 1#2 0x1FF 0xFFF0FF00).map encode = [0x04FF#16, 0x05F0#16, 0x06FF#16, 0x0700#16] := by
  decide
theorem test_refuses_literal_without_digit : numberOf ['0', 'b', '_'] = none ∧ numberOf ['0', 'x'] = none ∧
    numberOf ['0', 'b', '1', '_', '0'] = some 2 ∧
    parseLine ['S', 'E', 'T', 'I', 'B', 'D', ' ', '0', 'b', '_'] = .error .badOperands := by decide

/-- The running reference host before tick 2 of program P3, with the last two writes still to come. -/
def hostP3 : RefHost := (RefHost.create (0, 0) (0x7F, 0x00F000) (0, 0) (0, 0)).activate

/-- Tick 2 of program P3: SETIBD 10 before it, and pod 1's two writes between the ticks. -/
theorem test_second_tick_of_P3 :
    ((hostP3.tick {
        groups := [{ events := [.store (.brightness 1#2 0x1FF), .store (.color 1#2 0xFFF0FF00)] }]
        ibds := [[⟨0, 10#14⟩]] }).2.map fun o => encode o.instr) =
      [0x800A#16, 0x0000#16, 0x0100#16, 0x0200#16, 0x0300#16, 0x04FF#16, 0x05F0#16, 0x06FF#16, 0x0700#16,
       0x0800#16, 0x0900#16, 0x0A00#16, 0x0B00#16, 0x0C00#16, 0x0D00#16, 0x0E00#16, 0x0F00#16] := by decide

/-- Pod 1 while both its fields are being written. -/
def hostWriting : RefHost := hostP3.events [.beginWrite (.brightness 1#2 0x1FF), .beginWrite (.color 1#2 0xFFF0FF00)]

/-- A torn read: the new brightness with the old colour (45_host_sequence.md R97). -/
theorem test_torn_read :
    hostWriting.readPod ⟨1#2, 0x7F, 0x00F000⟩ (some (0x1FF, 0x00F000)) = ⟨1#2, 0x1FF, 0x00F000⟩ ∧
    (hostWriting.readPod ⟨1#2, 0x7F, 0x00F000⟩ (some (0x100, 0x00F000))).brightness = 0x7F := by decide

theorem test_interval_set_in_tick : (hostP3.tick { atEnd := [.setInterval 1] }).1.interval = 500 := by decide
theorem test_boot_drives : bootDrives ⟨19200, 1, 1, false⟩ 1 [⟨2, 5#14⟩] { hostP3 with registry := [] } [] =
    [.reset, .reset, .quiet, .quiet, .offer 0x8005#16] := by decide
/-- A SETIBD offered after the last SEND of a tick, and one in the pause (70_reset_and_hazards.md R125). -/
theorem test_ibds_around_tick_end : interTick ⟨19200, 1, 1, false⟩ 4 (some ⟨1, 7#14⟩) [⟨1, 9#14⟩] =
    [.quiet, .offer 0x8007#16, .quiet, .offer 0x8009#16, .quiet, .quiet] := by decide
theorem test_interval_floor : effectiveInterval 499 = 500 ∧ effectiveInterval 501 = 501 := by decide
theorem test_tick_length : tickMinCycles ⟨19200, 2, 1, false⟩ 1#14 = 16 * 22 - 1 := by decide
theorem test_tick_seconds : tickMinSeconds ⟨19200, 2, 1, false⟩ 1#14 = 352 / 19200 ∧
    bitSeconds ⟨19200, 2, 1, false⟩ = 1 / 9600 := by
  norm_num [tickMinSeconds, bitSeconds, frameSeconds, unitSeconds, frameCycles]
theorem test_empty_line : parseLine [' ', ';', 'x'] = .ok none ∧ parseLine [] = .ok none := by decide
theorem test_cycles_until_ready : cyclesUntilReady ⟨19200, 2, 3, false⟩ 40#14 (.sendraw 0#8) = 140 := by decide

/-! ### Witnesses of the hypotheses of the obligations -/

theorem witness_ResetEdgeLoadsResetValues : (driven inFrame .reset).port.rst = true ∧
    (driven idle .reset).port.rst = true ∧ (driven unlaunched .reset).port.rst = true := by decide
theorem witness_ResetCutsByteAndLogsAbort :
    ((driven inFrame .reset).Inv ∧ (driven inFrame .reset).launched = true ∧
      (driven inFrame .reset).port.rst = true ∧ (driven inFrame .reset).phase ≠ .idle) ∧
    ((driven inPause .reset).Inv ∧ (driven inPause .reset).launched = true ∧
      (driven inPause .reset).port.rst = true ∧ (driven inPause .reset).phase ≠ .idle) :=
  ⟨⟨inFrame_inv _, by decide⟩, ⟨inPause_inv _, by decide⟩⟩

/-- A reset cycle followed by an offered RSVD. -/
def resetThenOffer : State := { driven inFrame .reset with host := [.offer 0xC000#16] }

theorem witness_FirstEdgeAfterResetAccepts : resetThenOffer.port.rst = true ∧
    step resetThenOffer = .next (after 1 resetThenOffer) ∧ (after 1 resetThenOffer).port.rst = false ∧
    (after 1 resetThenOffer).port.cmdValid = true := ⟨rfl, rfl, rfl, rfl⟩
theorem witness_RunWithoutResetIsRefused :
    (unlaunched.launched = false ∧ unlaunched.port.rst = false) ∧
    ((driven unlaunched .reset).launched = false ∧ (driven unlaunched .reset).port.rst = true) := by decide
theorem witness_FirstResetStartsRun :
    (driven unlaunched .reset).launched = false ∧ (driven unlaunched .reset).port.rst = true := by decide
theorem witness_ResetHasPriority : (driven inFrame .reset).port.rst = true ∧
    (⟨true, true, 0xC000#16, true⟩ : Drive).rst = true ∧
    (offering 40#14 0xC000#16 []).edge = .accept 0xC000#16 := by decide
theorem witness_StepKeepsInvariant : (offering 0#14 0x0000#16 []).Inv ∧
    step (offering 0#14 0x0000#16 []) = .next (after 1 (offering 0#14 0x0000#16 [])) := ⟨offering_inv _ _ _, rfl⟩
theorem witness_NoRunIsStopped : idle.launched = true := rfl
theorem witness_ParametersNeverChange :
    runEdges 2 (offering 0#14 0x0000#16 []) = .next (after 2 (offering 0#14 0x0000#16 [])) := rfl
theorem witness_StepRunsAcceptedCommand :
    (offering 40#14 0x4014#16 [0xC000#16]).launched = true ∧ (offering 40#14 0x4014#16 [0xC000#16]).port.cmdValid = true ∧
    (offering 40#14 0x4014#16 [0xC000#16]).cmdReady = true ∧
    (offering 40#14 0x4014#16 [0xC000#16]).port.cmdData = encode (.sendraw 0x14#8) := by decide
theorem inFrame_edge : inFrame.edge = .run := rfl
theorem inFrame_edge_offered : State.edge { inFrame with port := Drive.offer 0xC000#16 } = .run := rfl
theorem witness_AcceptanceIsTheOnlyInput :
    idle.launched = true ∧ (offering 40#14 0xC000#16 []).edge = .accept 0xC000#16 ∧
    (Drive.offer 0xC000#16).rst = inFrame.port.rst ∧ (∀ c, inFrame.edge ≠ .accept c) ∧
    (∀ c, State.edge { inFrame with port := Drive.offer 0xC000#16 } ≠ .accept c) ∧
    step inFrame = .next (after 1 inFrame) ∧
    step { inFrame with port := Drive.offer 0xC000#16 } =
      .next (after 1 { inFrame with port := Drive.offer 0xC000#16 }) :=
  ⟨rfl, rfl, rfl, fun _ h => EdgeKind.noConfusion (inFrame_edge.symm.trans h),
    fun _ h => EdgeKind.noConfusion (inFrame_edge_offered.symm.trans h), rfl, rfl⟩
theorem witness_SendFrame : sentByte (.send 3#2 .blue 0xFF#8) = some 0x01#8 ∧
    exec (.send 3#2 .blue 0xFF#8) idle = .next (idle.startFrame 0x01#8) ∧
    sentByte (.sendraw 0xFF#8) = some 0x01#8 ∧ exec (.sendraw 0xFF#8) idle = .next (idle.startFrame 0x01#8) :=
  ⟨rfl, rfl, rfl, rfl⟩
theorem witness_RegisterCommandFrame : sentByte (.setibd 16383#14) = none ∧
    exec (.setibd 16383#14) inFrame = .next (inFrame.setIbd 16383#14) ∧
    sentByte .rsvd = none ∧ exec .rsvd inFrame = .next inFrame.setErr := ⟨rfl, rfl, rfl, rfl⟩
theorem witness_RegisterCommandsAreIdempotent : exec (.setibd 0#14) idle = .next (idle.setIbd 0#14) ∧
    exec .rsvd idle = .next idle.setErr ∧ sentByte (.sendraw 0xFF#8) = some 0x01#8 ∧
    exec (.sendraw 0xFF#8) idle = .next (idle.startFrame 0x01#8) ∧
    exec (.sendraw 0xFF#8) (idle.startFrame 0x01#8) = .next ((idle.startFrame 0x01#8).startFrame 0x01#8) :=
  ⟨rfl, rfl, rfl, rfl, rfl⟩
theorem witness_RegisterCommandsCompleteAtOnce :
    ((offering 40#14 0x8000#16 [0x0000#16]).Inv ∧
      (offering 40#14 0x8000#16 [0x0000#16]).edge = .accept 0x8000#16 ∧ cmdOp 0x8000#16 = 2#2) ∧
    ((after 1 (offering 40#14 0x8000#16 [0x0000#16])).port.rst = false ∧
      (after 1 (offering 40#14 0x8000#16 [0x0000#16])).port.cmdValid = true ∧
      sentByte (decode (after 1 (offering 40#14 0x8000#16 [0x0000#16])).port.cmdData) = some 0xFF#8) ∧
    ((offering 40#14 0xFFFF#16 []).Inv ∧
      (offering 40#14 0xFFFF#16 []).edge = .accept 0xFFFF#16 ∧ cmdOp 0xFFFF#16 = 3#2) :=
  ⟨⟨offering_inv _ _ _, by decide⟩, by decide, ⟨offering_inv _ _ _, by decide⟩⟩
theorem witness_WireLogOnlyGrows : inFrame.launched = true ∧
    runEdges 1 (driven inFrame .reset) = .next (after 1 (driven inFrame .reset)) := ⟨rfl, rfl⟩
theorem witness_ErrStaysUntilReset : noReset 2 { idle with err := true } = true ∧
    runEdges 2 { idle with err := true } = .next (after 2 { idle with err := true }) ∧
    (State.err { idle with err := true }) = true := ⟨rfl, rfl, rfl⟩
theorem witness_ErrHasOneCauseAndNoEffect : (offering 40#14 0xC000#16 []).launched = true ∧
    (offering 40#14 0xC000#16 []).err = false ∧
    runEdges 1 (offering 40#14 0xC000#16 []) = .next (after 1 (offering 40#14 0xC000#16 [])) ∧
    (after 1 (offering 40#14 0xC000#16 [])).err = true := ⟨rfl, rfl, rfl, rfl⟩

/-- A SEND of wire byte 0x01 with IBD = 1, offered in this cycle. -/
def sending : State := offering 1#14 0x0FFF#16 []

theorem witness_FrameSchedule : sending.Inv ∧ sending.startingByte = some 0x01#8 ∧
    step sending = .next (after 1 sending) ∧ (0 : Nat) < 10 * sending.params.div ∧
    9 < 10 * sending.params.div ∧ noReset 0 (after 1 sending) = true ∧ noReset 9 (after 1 sending) = true :=
  ⟨offering_inv _ _ _, rfl, rfl, by decide, by decide, rfl, by decide⟩
theorem witness_PauseSchedule : (sending.Inv ∧ sending.startingByte = some 0x01#8 ∧
    step sending = .next (after 1 sending) ∧ 10 * sending.params.div ≤ 10 ∧
    11 ≤ 10 * sending.params.div + sending.ibd.toNat * sending.params.unitCycles ∧
    noReset 10 (after 1 sending) = true ∧ noReset 11 (after 1 sending) = true) ∧
    (inPause.Inv ∧ inPause.launched = true ∧ inPause.phase = .pause) ∧
    (idle.Inv ∧ idle.launched = true ∧ idle.phase = .idle) :=
  ⟨⟨offering_inv _ _ _, rfl, rfl, by decide, by decide, by decide, by decide⟩,
    ⟨inPause_inv inPause.port, rfl, rfl⟩, ⟨idle_inv, rfl, rfl⟩⟩

/-- A SEND with IBD = 0 and, held behind it, an RSVD. -/
def sendThenReserved : State := offering 0#14 0x0FFF#16 [0xC000#16]

theorem witness_SpacingGuarantee : sendThenReserved.Inv ∧ sendThenReserved.startingByte = some 0x01#8 ∧
    step sendThenReserved = .next (after 1 sendThenReserved) ∧ noReset 10 (after 1 sendThenReserved) = true ∧
    noNewFrame 10 (after 1 sendThenReserved) = true ∧
    runEdges 10 (after 1 sendThenReserved) = .next (after 11 sendThenReserved) ∧
    (after 11 sendThenReserved).edge = .accept 0xC000#16 :=
  ⟨offering_inv _ _ _, rfl, rfl, by decide, by decide, rfl, by decide⟩
theorem witness_NoFrameWithoutCommand : (step sending = .next (after 1 sending) ∧ sending.phase ≠ .frame ∧
    (after 1 sending).phase = .frame) ∧
    (idle.launched = true ∧ idle.phase = .idle ∧ idle.port.rst = false ∧ idle.port.cmdValid = false ∧
      idle.host = []) := ⟨⟨rfl, by decide, rfl⟩, by decide⟩
theorem witness_LineRestsAtMark : (inPause.Inv ∧ inPause.launched = true ∧ inPause.phase ≠ .frame) ∧
    (inFrame.Inv ∧ inFrame.launched = true ∧ inFrame.txq = false) ∧
    ((driven inFrame .reset).port.rst = true ∧
      step (driven inFrame .reset) = .next (after 1 (driven inFrame .reset))) :=
  ⟨⟨inPause_inv inPause.port, by decide⟩, ⟨inFrame_inv inFrame.port, by decide⟩, ⟨rfl, rfl⟩⟩
theorem witness_CycleRefinesTransaction : (sending.launched = true ∧ step sending = .next (after 1 sending)) ∧
    (inFrame.launched = true ∧ step inFrame = .next (after 1 inFrame)) ∧
    ((driven inFrame .reset).launched = true ∧
      step (driven inFrame .reset) = .next (after 1 (driven inFrame .reset))) := ⟨⟨rfl, rfl⟩, ⟨rfl, rfl⟩, ⟨rfl, rfl⟩⟩
theorem witness_OfferedStreamCompletes : (offering 40#14 0x8001#16 [0x0000#16, 0x0FFF#16]).Inv ∧
    (offering 40#14 0x8001#16 [0x0000#16, 0x0FFF#16]).launched = true ∧
    (offering 40#14 0x8001#16 [0x0000#16, 0x0FFF#16]).phase = .idle ∧
    (offering 40#14 0x8001#16 [0x0000#16, 0x0FFF#16]).port = .offer 0x8001#16 ∧
    (offering 40#14 0x8001#16 [0x0000#16, 0x0FFF#16]).host = [0x0000#16, 0x0FFF#16].map Drive.offer :=
  ⟨offering_inv _ _ _, rfl, rfl, rfl, rfl⟩
/-- SETIBD 1 offered, and two SENDs behind it: 1 + 12 + 12 cycles. -/
def streaming : State := offering 40#14 0x8001#16 [0x0000#16, 0x0FFF#16]

theorem witness_OfferedStreamEndsNoSooner : streaming.Inv ∧ streaming.launched = true ∧ streaming.phase = .idle ∧
    streaming.port = .offer 0x8001#16 ∧ streaming.host = [0x0000#16, 0x0FFF#16].map Drive.offer ∧
    0 < streamCycles streaming.params streaming.ibd [0x8001#16, 0x0000#16, 0x0FFF#16] ∧
    24 < streamCycles streaming.params streaming.ibd [0x8001#16, 0x0000#16, 0x0FFF#16] :=
  ⟨offering_inv _ _ _, rfl, rfl, rfl, rfl, by decide, by decide⟩
theorem witness_RunEndIsFinal :
    State.launched { idle with host := [.quiet, .waitReady] } = true ∧
    State.runEnded { idle with host := [.quiet, .waitReady] } = true ∧
    (∀ d ∈ [Drive.quiet, Drive.waitReady], d.rst = false) ∧
    State.runEnded { idle with host := [.quiet, .offer 0x0000#16] } = false := by decide
theorem witness_WallClockFigures : Params.wf ⟨19200, 2, 1, false⟩ = true ∧ 19200 = 9600 * 2 ∧
    Registry.wf (RefHost.create (0, 0) (0, 0) (0, 0) (255, 0xFFFFFF)).registry = true := by decide
theorem witness_HeldOfferWaitsForReady :
    ((driven inFrame (.offer (encode (.setibd 7#14)))).Inv ∧
      (driven inFrame (.offer (encode (.setibd 7#14)))).launched = true ∧
      (driven inFrame (.offer (encode (.setibd 7#14)))).port = .offer (encode (.setibd 7#14))) ∧
    ((driven inPause (.offer (encode .rsvd))).Inv ∧ (driven inPause (.offer (encode .rsvd))).launched = true ∧
      (driven inPause (.offer (encode .rsvd))).port = .offer (encode .rsvd)) ∧
    ((offering 0#14 (encode (.sendraw 0xFF#8)) []).Inv ∧
      (offering 0#14 (encode (.sendraw 0xFF#8)) []).launched = true ∧
      (offering 0#14 (encode (.sendraw 0xFF#8)) []).port = .offer (encode (.sendraw 0xFF#8))) :=
  ⟨⟨inFrame_inv _, rfl, rfl⟩, ⟨inPause_inv _, rfl, rfl⟩, ⟨offering_inv _ _ _, rfl, rfl⟩⟩
theorem witness_DecodeReadsFields : (0x0FFF#16).extractLsb' 14 2 = 0#2 ∧ (0x4FFF#16).extractLsb' 14 2 = 1#2 ∧
    (0xBFFF#16).extractLsb' 14 2 = 2#2 ∧ (0xFFFF#16).extractLsb' 14 2 = 3#2 := by decide
theorem witness_EveryWordDecodesToOneRow : (0xC000#16).extractLsb' 14 2 = (0xFFFF#16).extractLsb' 14 2 ∧
    (0xFFFF#16).extractLsb' 14 2 = 3#2 := by decide
theorem witness_IgnoredBitsHaveNoEffect :
    (0x0080#16 &&& ~~~ignoredBits (decode 0x0080#16) = 0x3080#16 &&& ~~~ignoredBits (decode 0x0080#16)) ∧
    (offering 40#14 0x0080#16 []).port.cmdData = 0x0080#16 ∧
    step (offering 40#14 0x0080#16 []) = .next (after 1 (offering 40#14 0x0080#16 [])) ∧
    (0x0F14#16).extractLsb' 0 12 = (0xFF14#16).extractLsb' 0 12 := ⟨by decide, rfl, rfl, by decide⟩
theorem witness_DecodeEncInvertsEncode : 0xF0#8 &&& 0x0F#8 = 0#8 ∧ encodeByte 3#2 3#2 0xF0#8 = 0xFF#8 := by decide
theorem witness_DecodeWireInvertsWire : sentByte (.sendraw 0xFF#8) = some 0x01#8 ∧ (0x01#8).getLsbD 0 = true ∧
    (0xFE#8).getLsbD 0 = false := by decide
theorem witness_WireCarriesThreeValueBits : (0x80#8).getLsbD 7 = true := by decide
theorem witness_WireCodeImage : (0x01#8).getLsbD 0 = true ∧ wire 3#2 3#2 ((7#3).setWidth 8 <<< 4) = 0x01#8 := by decide
theorem witness_CombinationalOutputs : (driven inFrame (.offer 0x4014#16)).port.cmdData =
    (offering 40#14 0x4014#16 []).port.cmdData := by decide
theorem witness_AssemblerWords : (3 : Nat) < 4 ∧ 255 < 256 ∧ 16383 < 16384 ∧ (4 ≤ 4 ∨ 4 ≤ 3 ∨ 256 ≤ 255) ∧
    256 ≤ 256 ∧ 16384 ≤ 16384 := by decide
theorem witness_PodReadIsStoredOrTorn :
    hostWriting.readPod ⟨1#2, 0x7F, 0x00F000⟩ none = ⟨1#2, 0x7F, 0x00F000⟩ ∧
    PodWrite.brightness 1#2 0x1FF ∈ hostWriting.writing ∧ PodWrite.color 1#2 0xFFF0FF00 ∈ hostWriting.writing := by decide
theorem witness_TickSendsPodsInOrder : hostWriting.scheduler = .running ∧
    (hostWriting.sample (List.range hostWriting.registry.length) [{}, { seen := some (0x1FF, 0x00F000) }]).2 =
      [⟨0#2, 0, 0⟩, ⟨1#2, 0x1FF, 0x00F000⟩, ⟨2#2, 0, 0⟩, ⟨3#2, 0, 0⟩] ∧
    0 < hostWriting.registry.length ∧ 3 < hostWriting.registry.length ∧
    hostWriting = hostWriting.events (([{}, { seen := some (0x1FF, 0x00F000) }].take (3 + 1)).flatMap
      GroupInput.events) := by decide
theorem witness_TickReflectsLatestValues : hostP3.scheduler = .running ∧ hostP3.writing = [] ∧
    (RefHost.create (0, 0) (0x7F, 0x00F000) (0, 0) (0, 0)).scheduler = .idle := by decide
theorem witness_UpdateIntervalFloor : 500 ≤ ((500 : ℕ+) : Nat) := by decide

end Sys2Proof.Tests
end

/-! SUPPORT. What the decoder reads: the instruction of each opcode, the rows of the table that cover a word, and
what the ignored bits can reach (30_encoding.md R42 to R45). -/

namespace Sys2Proof

/-! ### The decoder, by opcode -/

/-- Bits 15:14 take one of the four opcodes (30_encoding.md R42). -/
theorem cmdOp_cases (c : Word) : cmdOp c = 0#2 ∨ cmdOp c = 1#2 ∨ cmdOp c = 2#2 ∨ cmdOp c = 3#2 := by
  generalize cmdOp c = b
  revert b
  decide

theorem decode_of_cmdOp_zero {c : Word} (h : cmdOp c = 0#2) :
    decode c = .send (cmdIdx c) (channelOf (cmdCh c)) (cmdByte c) := by simp [decode, h]

theorem decode_of_cmdOp_one {c : Word} (h : cmdOp c = 1#2) : decode c = .sendraw (cmdByte c) := by
  simp [decode, h]

theorem decode_of_cmdOp_two {c : Word} (h : cmdOp c = 2#2) : decode c = .setibd (cmdN c) := by
  simp [decode, h]

theorem decode_of_cmdOp_three {c : Word} (h : cmdOp c = 3#2) : decode c = .rsvd := by
  simp [decode, h]

/-- The decoded instruction has the opcode in bits 15:14 (30_encoding.md R43). -/
@[simp] theorem opcode_decode (c : Word) : (decode c).opcode = cmdOp c := by
  rcases cmdOp_cases c with h | h | h | h
  · rw [decode_of_cmdOp_zero h, h]; rfl
  · rw [decode_of_cmdOp_one h, h]; rfl
  · rw [decode_of_cmdOp_two h, h]; rfl
  · rw [decode_of_cmdOp_three h, h]; rfl

/-! ### The opcode table -/

/-- The pattern of the opcode table's row of an opcode: it stands in bits 15:14, and the other bits are 0. -/
def opcodePattern (op : BitVec 2) : Word := op.setWidth 16 <<< 14

/-- Under the table's mask a word is the pattern of its opcode. -/
theorem and_opcodeMask (c : Word) : c &&& 0xC000#16 = opcodePattern (cmdOp c) := by
  apply BitVec.eq_of_getLsbD_eq
  intro k hk
  interval_cases k <;> simp [cmdOp, opcodePattern]

/-- Every row has the one mask, so a row covers the words with its opcode. -/
theorem covers_of_mem_opcodeTable {r : OpcodeRow} (hr : r ∈ opcodeTable) (c : Word) :
    r.covers c = decide (opcodePattern (cmdOp c) = r.pattern) := by
  have hmask : ∀ r ∈ opcodeTable, r.mask = 0xC000#16 := by decide
  rw [OpcodeRow.covers, hmask r hr, and_opcodeMask]

/-- An instruction's opcode is in the pattern of one row, and that row bears its mnemonic. -/
theorem opcodeTable_filter_opcode (i : Instr) :
    (opcodeTable.filter fun r => opcodePattern i.opcode = r.pattern).map OpcodeRow.mnemonic = [i.mnemonic] := by
  cases i <;> simp [opcodeTable, opcodePattern, Instr.opcode, Instr.mnemonic]

/-- Exactly one row covers a word, and it is the row of the decoded instruction (30_encoding.md R43). -/
theorem opcodeTable_filter_covers (c : Word) :
    (opcodeTable.filter fun r => r.covers c).map OpcodeRow.mnemonic = [(decode c).mnemonic] := by
  rw [List.filter_congr fun r hr => covers_of_mem_opcodeTable hr c, ← opcode_decode,
    opcodeTable_filter_opcode]

theorem mnemonic_eq_of_opcode_eq {i j : Instr} (h : i.opcode = j.opcode) : i.mnemonic = j.mnemonic := by
  have hrow := opcodeTable_filter_opcode i
  rw [h, opcodeTable_filter_opcode j] at hrow
  exact (List.singleton_inj.1 hrow).symm

/-! ### Words the decoder does not tell apart -/

/-- Words that agree under a mask agree on every bit field the mask keeps whole. -/
theorem extractLsb'_eq_of_and_eq {c c' m : Word} (h : c &&& m = c' &&& m) {lo len : Nat}
    (hm : m.extractLsb' lo len = BitVec.allOnes len) : c.extractLsb' lo len = c'.extractLsb' lo len := by
  have hfield := congrArg (BitVec.extractLsb' lo len) h
  simpa only [BitVec.extractLsb'_and, hm, BitVec.and_allOnes] using hfield

/-- No row ignores a bit of its opcode (30_encoding.md R42). -/
theorem opcode_outside_ignoredBits (i : Instr) : (~~~ignoredBits i).extractLsb' 14 2 = BitVec.allOnes 2 := by
  cases i <;> rw [ignoredBits] <;> rfl

/-- Words that agree outside the ignored bits of the one's row decode alike (30_encoding.md R44). -/
theorem decode_eq_of_agree_outside_ignoredBits {c c' : Word}
    (h : c &&& ~~~ignoredBits (decode c) = c' &&& ~~~ignoredBits (decode c)) : decode c' = decode c := by
  have hsame : cmdOp c = cmdOp c' := extractLsb'_eq_of_and_eq h (opcode_outside_ignoredBits _)
  rcases cmdOp_cases c with hop | hop | hop | hop
  · rw [decode_of_cmdOp_zero hop] at h ⊢
    rw [ignoredBits] at h
    have hidx : cmdIdx c = cmdIdx c' := extractLsb'_eq_of_and_eq h (by decide)
    have hch : cmdCh c = cmdCh c' := extractLsb'_eq_of_and_eq h (by decide)
    have hval : cmdByte c = cmdByte c' := extractLsb'_eq_of_and_eq h (by decide)
    rw [decode_of_cmdOp_zero (hsame ▸ hop), hidx, hch, hval]
  · rw [decode_of_cmdOp_one hop] at h ⊢
    rw [ignoredBits] at h
    have heb : cmdByte c = cmdByte c' := extractLsb'_eq_of_and_eq h (by decide)
    rw [decode_of_cmdOp_one (hsame ▸ hop), heb]
  · rw [decode_of_cmdOp_two hop] at h ⊢
    rw [ignoredBits] at h
    have hn : cmdN c = cmdN c' := extractLsb'_eq_of_and_eq h (by decide)
    rw [decode_of_cmdOp_two (hsame ▸ hop), hn]
  · rw [decode_of_cmdOp_three hop, decode_of_cmdOp_three (hsame ▸ hop)]

/-- Words that agree on bits 11:0 agree on every bit field inside them. -/
theorem extractLsb'_eq_of_low_eq {c c' : Word} (h : c.extractLsb' 0 12 = c'.extractLsb' 0 12) {lo len : Nat}
    (hle : lo + len ≤ 12) : c.extractLsb' lo len = c'.extractLsb' lo len := by
  apply BitVec.eq_of_getLsbD_eq
  intro k hk
  have hbit := congrArg (fun b => b.getLsbD (lo + k)) h
  simpa [hk, show lo + k < 12 by omega] using hbit

end Sys2Proof

namespace Sys2Proof.Machine

/-- `enc_out` reads index, channel and byte, which lie in bits 11:0, whatever the opcode (10_state.md R29). -/
theorem encOutOf_eq_of_low_eq {c c' : Word} (h : c.extractLsb' 0 12 = c'.extractLsb' 0 12) :
    encOutOf c = encOutOf c' := by
  have hidx : cmdIdx c = cmdIdx c' := extractLsb'_eq_of_low_eq h (by decide)
  have hch : cmdCh c = cmdCh c' := extractLsb'_eq_of_low_eq h (by decide)
  have hval : cmdByte c = cmdByte c' := extractLsb'_eq_of_low_eq h (by decide)
  rw [encOutOf, encOutOf, hidx, hch, hval]

/-! ### A step, by the inputs and the state that decide it -/

theorem step_of_rst {s : State} (hr : s.port.rst = true) : step s = .next s.takeInputs.resetEdge := by
  simp [step, State.edge, hr]

theorem step_of_accept {s : State} (hr : s.port.rst = false) (hl : s.launched = true) (hp : s.phase = .idle)
    (hv : s.port.cmdValid = true) : step s = exec (decode s.port.cmdData) s.takeInputs := by
  simp [step, State.edge, State.cmdReady, hr, hl, hp, hv]

theorem step_of_run {s : State} (hr : s.port.rst = false) (hl : s.launched = true)
    (hn : ¬(s.phase = .idle ∧ s.port.cmdValid = true)) : step s = .next s.takeInputs.runEdge := by
  have hna : (s.port.cmdValid && s.cmdReady) = false := by simp [State.cmdReady, hr]; tauto
  simp [step, State.edge, hr, hl, hna]

/-! ### What a step does not read of the ports -/

/-- Another drive on the ports in the present cycle. -/
def State.withPort (p : Drive) (s : State) : State := { s with port := p }

theorem exec_withPort (i : Instr) (p : Drive) {s t : State} (h : exec i s = .next t) :
    exec i (s.withPort p) = .next (t.withPort p) := by
  cases i <;> cases h <;> rfl

theorem resetEdge_withPort (p : Drive) (s : State) : (s.withPort p).resetEdge = s.resetEdge.withPort p := rfl

theorem frameEdge_withPort (p : Drive) (s : State) : (s.withPort p).frameEdge = s.frameEdge.withPort p := by
  simp only [State.frameEdge, State.endFrame, apply_ite (State.withPort p)]
  rfl

theorem pauseEdge_withPort (p : Drive) (s : State) : (s.withPort p).pauseEdge = s.pauseEdge.withPort p := by
  simp only [State.pauseEdge, apply_ite (State.withPort p)]
  rfl

theorem runEdge_withPort (p : Drive) (s : State) : (s.withPort p).runEdge = s.runEdge.withPort p := by
  have hphase : (s.withPort p).phase = s.phase := rfl
  unfold State.runEdge
  rw [hphase]
  cases s.phase with
  | idle => rfl
  | frame => exact frameEdge_withPort p s
  | pause => exact pauseEdge_withPort p s

/-- Another word on `cmd_data` in the present cycle. -/
def State.withCmdData (c : Word) (s : State) : State := s.withPort { s.port with cmdData := c }

/-- How the host's drives move on does not depend on `cmd_data`, which at most stays on the port (log 4). -/
theorem takeInputs_withCmdData (c : Word) (s : State) :
    ∃ p, (s.withCmdData c).takeInputs = s.takeInputs.withPort p := by
  rcases takeInputs_cases s with ⟨h, e⟩ | ⟨h, e⟩
  · rcases takeInputs_cases (s.withCmdData c) with ⟨-, e'⟩ | ⟨h', -⟩
    · exact ⟨_, by rw [e, e']; rfl⟩
    · exact absurd h h'
  · rcases takeInputs_cases (s.withCmdData c) with ⟨h', -⟩ | ⟨-, e'⟩
    · exact absurd h' h
    · exact ⟨_, by rw [e, e']; rfl⟩

/-- A step with another word of the same meaning on `cmd_data` gives the same next state but for the ports. -/
theorem step_withCmdData {s t : State} {c : Word} (hc : decode c = decode s.port.cmdData)
    (h : step s = .next t) : ∃ p, step (s.withCmdData c) = .next (t.withPort p) := by
  obtain ⟨p, hin⟩ := takeInputs_withCmdData c s
  refine ⟨p, ?_⟩
  rcases step_cases s with ⟨hr, e⟩ | ⟨hr, hl, e⟩ | ⟨hr, hl, hp, hv, e⟩ | ⟨hr, hl, hn, e⟩ <;> rw [e] at h
  · cases h
    rw [step_of_rst (s := s.withCmdData c) hr, hin, resetEdge_withPort]
  · cases h
  · rw [step_of_accept (s := s.withCmdData c) hr hl hp hv, hin]
    exact hc ▸ exec_withPort _ p h
  · cases h
    rw [step_of_run (s := s.withCmdData c) hr hl hn, hin, runEdge_withPort]

/-! ### The obligations -/

/-- Settles O36: the decoder's arm of each opcode; the channel is the one whose number is bits 9:8. -/
theorem decodeReadsFields : Obligations.DecodeReadsFields := fun c =>
  ⟨fun h => ⟨channelOf (cmdCh c), bits_channelOf _, decode_of_cmdOp_zero h⟩,
    decode_of_cmdOp_one, decode_of_cmdOp_two, decode_of_cmdOp_three⟩

/-- Settles O37: the row is the one whose pattern holds the opcode, and the opcode is bits 15:14. -/
theorem everyWordDecodesToOneRow : Obligations.EveryWordDecodesToOneRow := by
  refine ⟨opcodeTable_filter_covers, fun c c' h => mnemonic_eq_of_opcode_eq ?_,
    fun c s => exec_next (decode c) s, fun c s h => ?_⟩
  · rw [opcode_decode, opcode_decode]
    exact h
  · rw [decode_of_cmdOp_three h]
    rfl

/-- Settles O38: the decoder drops the ignored bits, and a step reads `cmd_data` through the decoder alone, but for
what stays on the port. -/
theorem ignoredBitsHaveNoEffect : Obligations.IgnoredBitsHaveNoEffect := by
  refine ⟨fun c c' s t h => ?_, fun c c' h => ?_⟩
  · have hdec : decode c' = decode c := decode_eq_of_agree_outside_ignoredBits h
    refine ⟨hdec, fun hs hstep => ?_⟩
    obtain ⟨p, hp⟩ := step_withCmdData (hs ▸ hdec) hstep
    exact ⟨t.withPort p, hp, rfl⟩
  · have henc : encOutOf c = encOutOf c' := encOutOf_eq_of_low_eq h
    exact ⟨henc, congrArg wireCode henc⟩

end Sys2Proof.Machine

/-! SUPPORT. The encoder family, one rule per function: the fields `encode` writes, what `wire_code` makes of a bit
field, and which operands the wire byte tells apart (40_encoder.md R60 to R66). -/

namespace Sys2Proof.Machine

/-! ### The Byte Encoder -/

/-- The second form of R60: no mask is needed for operands in range. -/
theorem encodeByte_eq_or (idx ch : BitVec 2) (val : Byte) :
    encodeByte idx ch val = (val &&& 0xF0#8) ||| (ch.setWidth 8 <<< 2) ||| idx.setWidth 8 := by
  ext k hk
  interval_cases k <;> simp [encodeByte]

@[simp] theorem encodeByte_idx (idx ch : BitVec 2) (val : Byte) :
    (encodeByte idx ch val).extractLsb' 0 2 = idx := by
  ext k hk
  interval_cases k <;> simp [encodeByte]

@[simp] theorem encodeByte_ch (idx ch : BitVec 2) (val : Byte) :
    (encodeByte idx ch val).extractLsb' 2 2 = ch := by
  ext k hk
  interval_cases k <;> simp [encodeByte]

/-- The encoder keeps every field of the value that starts at its high nibble. -/
@[simp] theorem encodeByte_val (idx ch : BitVec 2) (val : Byte) {len : Nat} (hlen : len ≤ 4) :
    (encodeByte idx ch val).extractLsb' 4 len = val.extractLsb' 4 len := by
  ext k hk
  have hk4 : k < 4 := by omega
  interval_cases k <;> simp [encodeByte]

@[simp] theorem decodeEnc_encodeByte (idx ch : BitVec 2) (val : Byte) :
    decodeEnc (encodeByte idx ch val) = (idx, ch, val.extractLsb' 4 4) := by
  simp [decodeEnc]

/-- Encoding the fields of a byte gives the byte back. -/
theorem encodeByte_fields (b : Byte) :
    encodeByte (b.extractLsb' 0 2) (b.extractLsb' 2 2) ((b.extractLsb' 4 4).setWidth 8 <<< 4) = b := by
  ext k hk
  interval_cases k <;> simp [encodeByte]

/-- Two values encode to bytes that differ where their high nibbles differ. -/
theorem encodeByte_xor_encodeByte (idx ch : BitVec 2) (val val' : Byte) :
    encodeByte idx ch val ^^^ encodeByte idx ch val' = (val ^^^ val') &&& 0xF0#8 := by
  ext k hk
  interval_cases k <;> simp [encodeByte]

/-! ### Values with a field at bit 4 and nothing below -/

/-- A field of at most 4 bits, put at bit 4 of a value, is read back there. -/
@[simp] theorem extractLsb'_setWidth_shiftLeft_four {len : Nat} (hlen : len ≤ 4) (v : BitVec len) :
    (v.setWidth 8 <<< 4).extractLsb' 4 len = v := by
  ext k hk
  simp [show 4 + k < 8 by omega, BitVec.getLsbD_eq_getElem, hk]

theorem setWidth_shiftLeft_four_and_low {len : Nat} (v : BitVec len) :
    v.setWidth 8 <<< 4 &&& 0x0F#8 = 0#8 := by
  ext k hk
  interval_cases k <;> simp

/-- A value with low nibble 0 is its high nibble, put at bit 4. -/
theorem setWidth_nibble_shiftLeft_four {val : Byte} (hlow : val &&& 0x0F#8 = 0#8) :
    (val.extractLsb' 4 4).setWidth 8 <<< 4 = val := by
  have hbit : ∀ k < 4, val.getLsbD k = false := by
    intro k hk
    have h := congrArg (fun b => b.getLsbD k) hlow
    interval_cases k <;> simpa using h
  apply BitVec.eq_of_getLsbD_eq
  intro k hk
  by_cases hk4 : k < 4
  · simp [hk4, hbit k hk4]
  · simp [hk, hk4, show k - 4 < 4 by omega, show 4 + (k - 4) = k by omega]

/-! ### The line transformation -/

/-- R61 in 8 bits: the bit shifted out is the one that truncation drops. -/
theorem wireCode_eq_not_shiftLeft (b : Byte) : wireCode b = ~~~(b <<< 1) := by
  ext k hk
  interval_cases k <;> simp [wireCode]

/-- The framing bit of a wire byte is 1 (40_encoder.md R61). -/
@[simp] theorem getLsbD_zero_wireCode (b : Byte) : (wireCode b).getLsbD 0 = true := by
  simp [wireCode_eq_not_shiftLeft]

/-- A field of the encoded byte below bit 7 stands inverted, one place higher, in the wire byte. -/
theorem extractLsb'_wireCode (b : Byte) {lo len : Nat} (h : lo + len ≤ 7) :
    (wireCode b).extractLsb' (lo + 1) len = ~~~(b.extractLsb' lo len) := by
  ext k hk
  simp [wireCode_eq_not_shiftLeft, show lo + 1 + k < 8 by omega, show lo + 1 + k - 1 = lo + k by omega,
    show lo + k < 8 by omega, BitVec.getLsbD_eq_getElem]

/-- A shift by one loses bit 7 alone. -/
theorem shiftLeft_one_eq_zero_iff (b : Byte) : b <<< 1 = 0#8 ↔ b = 0#8 ∨ b = 0x80#8 := by
  bv_omega

/-- Two encoded bytes have one wire byte exactly when they differ at most in bit 7 (40_encoder.md R66). -/
theorem wireCode_eq_wireCode_iff (b b' : Byte) :
    wireCode b = wireCode b' ↔ b' = b ∨ b' = b ^^^ 0x80#8 := by
  calc wireCode b = wireCode b'
      ↔ b <<< 1 = b' <<< 1 := by
        rw [wireCode_eq_not_shiftLeft, wireCode_eq_not_shiftLeft, BitVec.not_inj]
    _ ↔ (b ^^^ b') <<< 1 = 0#8 := by rw [BitVec.shiftLeft_xor_distrib, BitVec.xor_eq_zero_iff]
    _ ↔ b ^^^ b' = 0#8 ∨ b ^^^ b' = 0x80#8 := shiftLeft_one_eq_zero_iff _
    _ ↔ b' = b ∨ b' = b ^^^ 0x80#8 := by
        have hxor : b ^^^ b' = 0x80#8 ↔ b' = b ^^^ 0x80#8 := by
          rw [← BitVec.xor_right_inj b, ← BitVec.xor_assoc, BitVec.xor_self, BitVec.zero_xor]
        rw [BitVec.xor_eq_zero_iff, eq_comm, hxor]

/-! ### The byte a SEND puts on the line -/

/-- The first closed form of R62. -/
theorem wire_eq_not_or (idx ch : BitVec 2) (val : Byte) :
    wire idx ch val = ~~~((idx.setWidth 8 <<< 1) ||| (ch.setWidth 8 <<< 3) ||| (((val >>> 4) &&& 7#8) <<< 5)) := by
  rw [wire, wireCode_eq_not_shiftLeft]
  ext k hk
  interval_cases k <;> simp [encodeByte]

/-- The second closed form of R62. -/
theorem wire_eq_or_not (idx ch : BitVec 2) (val : Byte) :
    wire idx ch val = 0x01#8 ||| ((~~~idx).setWidth 8 <<< 1) ||| ((~~~ch).setWidth 8 <<< 3) |||
      ((~~~(val >>> 4) &&& 7#8) <<< 5) := by
  rw [wire_eq_not_or]
  ext k hk
  interval_cases k <;> simp

/-- A mask that keeps bits 6:4 of the value changes nothing on the line. -/
theorem wire_and {mask : Byte} (hmask : mask >>> 4 &&& 7#8 = 7#8) (idx ch : BitVec 2) (val : Byte) :
    wire idx ch (val &&& mask) = wire idx ch val := by
  rw [wire_eq_not_or, wire_eq_not_or, BitVec.ushiftRight_and_distrib, BitVec.and_assoc, hmask]

@[simp] theorem getLsbD_zero_wire (idx ch : BitVec 2) (val : Byte) : (wire idx ch val).getLsbD 0 = true :=
  getLsbD_zero_wireCode _

@[simp] theorem wire_idx (idx ch : BitVec 2) (val : Byte) : (wire idx ch val).extractLsb' 1 2 = ~~~idx := by
  rw [wire, extractLsb'_wireCode _ (lo := 0) (by decide), encodeByte_idx]

@[simp] theorem wire_ch (idx ch : BitVec 2) (val : Byte) : (wire idx ch val).extractLsb' 3 2 = ~~~ch := by
  rw [wire, extractLsb'_wireCode _ (lo := 2) (by decide), encodeByte_ch]

@[simp] theorem wire_val (idx ch : BitVec 2) (val : Byte) :
    (wire idx ch val).extractLsb' 5 3 = ~~~(val.extractLsb' 4 3) := by
  rw [wire, extractLsb'_wireCode _ (lo := 4) (by decide), encodeByte_val _ _ _ (by decide)]

/-! ### What a wire byte carries -/

theorem decodeWire_eq_none_iff (w : Byte) : decodeWire w = none ↔ w.getLsbD 0 = false := by
  simp [decodeWire]

theorem decodeWire_of_framed {w : Byte} (hw : w.getLsbD 0 = true) :
    decodeWire w = some (~~~(w.extractLsb' 1 2), ~~~(w.extractLsb' 3 2), ~~~(w.extractLsb' 5 3)) := by
  simp [decodeWire, hw]

@[simp] theorem decodeWire_wire (idx ch : BitVec 2) (val : Byte) :
    decodeWire (wire idx ch val) = some (idx, ch, val.extractLsb' 4 3) := by
  simp [decodeWire_of_framed]

/-- A byte with the framing bit 1 is the wire byte of its inverted fields. -/
theorem wire_fields {w : Byte} (hw : w.getLsbD 0 = true) :
    wire (~~~(w.extractLsb' 1 2)) (~~~(w.extractLsb' 3 2)) ((~~~(w.extractLsb' 5 3)).setWidth 8 <<< 4) = w := by
  rw [wire_eq_not_or]
  ext k hk
  interval_cases k <;> simp [hw]

/-- The framing bit keeps a byte from 0. -/
theorem one_le_of_framed {w : Byte} (hw : w.getLsbD 0 = true) : 0x01#8 ≤ w := by
  have hne : w ≠ 0#8 := by
    rintro rfl
    exact absurd hw (by decide)
  bv_omega

/-- Every byte an instruction sends comes from `wire_code`, and so has the framing bit 1. -/
theorem getLsbD_zero_of_sentByte {i : Instr} {w : Byte} (h : sentByte i = some w) : w.getLsbD 0 = true := by
  cases i with
  | send idx ch val => cases h; exact getLsbD_zero_wire _ _ _
  | sendraw eb => cases h; exact getLsbD_zero_wireCode _
  | setibd n => cases h
  | rsvd => cases h

/-- Bits 6:4 of a value, as R65 writes them and as a field. -/
theorem ushiftRight_four_and_seven (val : Byte) : val >>> 4 &&& 7#8 = (val.extractLsb' 4 3).setWidth 8 := by
  ext k hk
  interval_cases k <;> simp

/-- For one index and channel the wire byte tells apart bits 6:4 of the value and nothing else. -/
theorem wire_eq_wire_iff (idx ch : BitVec 2) (val val' : Byte) :
    wire idx ch val = wire idx ch val' ↔ val >>> 4 &&& 7#8 = val' >>> 4 &&& 7#8 := by
  constructor
  · intro h
    have hfield : val.extractLsb' 4 3 = val'.extractLsb' 4 3 := by
      simpa using congrArg decodeWire h
    rw [ushiftRight_four_and_seven, ushiftRight_four_and_seven, hfield]
  · intro h
    rw [wire_eq_not_or, wire_eq_not_or, h]

/-! ### The obligations -/

/-- Settles O45: the fields `encode` writes are the ones `decode_enc` reads, and a value with low nibble 0 is its
nibble. -/
theorem decodeEncInvertsEncode : Obligations.DecodeEncInvertsEncode := by
  refine ⟨fun b => rfl, decodeEnc_encodeByte, fun b => ?_,
    fun idx ch => decodeEnc_encodeByte idx ch 0x0F#8, by decide⟩
  refine ⟨_, _, _, ⟨setWidth_shiftLeft_four_and_low _, encodeByte_fields b⟩, ?_⟩
  rintro idx ch val hlow rfl
  simp [setWidth_nibble_shiftLeft_four hlow]

/-- Settles O46: the wire byte's fields above the framing bit are the operands inverted. -/
theorem decodeWireInvertsWire : Obligations.DecodeWireInvertsWire :=
  ⟨decodeWire_wire, decodeWire_eq_none_iff, fun _ _ => getLsbD_zero_of_sentByte, fun _ => decodeWire_of_framed,
    by decide, by decide, by decide, by decide⟩

/-- Settles O47: the closed form reads bits 6:4 of the value, which both masks keep; between the masks bit 7 is the
only bit of the high nibble that differs. -/
theorem wireCarriesThreeValueBits : Obligations.WireCarriesThreeValueBits := by
  refine fun idx ch val val' => ⟨wire_eq_wire_iff idx ch val val', ?_, fun hbit => ?_⟩
  · rw [wire_and (by decide), wire_and (by decide)]
  · rw [encodeByte_xor_encodeByte]
    ext k hk
    interval_cases k <;> simp [hbit]

/-- Settles O48: a byte with bit 0 = 1 is the wire byte of its inverted fields, and `decode_wire` gives any triple
back. -/
theorem wireCodeImage : Obligations.WireCodeImage := by
  refine ⟨fun w => ⟨fun hw => ⟨_, wire_fields hw⟩, ?_⟩, wireCode_eq_wireCode_iff,
    fun w hw => ⟨_, _, _, wire_fields hw, ?_⟩⟩
  · rintro ⟨b, rfl⟩
    exact getLsbD_zero_wireCode b
  · rintro idx ch v h
    have hdec := decodeWire_wire idx ch (v.setWidth 8 <<< 4)
    rw [h, decodeWire_of_framed hw] at hdec
    simpa [eq_comm] using hdec

/-- Settles O42: the fields and the second form of `encode`. -/
theorem encodePlacesFields : Obligations.EncodePlacesFields := by
  refine ⟨fun idx ch val => ⟨encodeByte_idx .., encodeByte_ch .., encodeByte_val _ _ _ le_rfl,
    encodeByte_eq_or .., ?_⟩, by decide, fun idx ch => encodeByte_val _ _ _ le_rfl⟩
  rw [encodeByte_eq_or, encodeByte_eq_or, BitVec.and_assoc, BitVec.and_self]

/-- Settles O43: `wire_code` is the NOT of the shifted byte. -/
theorem wireCodeShiftsAndInverts : Obligations.WireCodeShiftsAndInverts := by
  refine ⟨fun b => ⟨?_, ?_, getLsbD_zero_wireCode b, extractLsb'_wireCode b (by decide),
    (wireCode_eq_wireCode_iff b _).2 (.inr rfl)⟩, by decide, by decide, by decide, by decide, by decide⟩
  · rw [wireCode_eq_not_shiftLeft]
    exact BitVec.allOnes_xor.symm
  · rw [wireCode_eq_not_shiftLeft, BitVec.shiftLeft_eq_concat_of_lt (by decide)]
    exact BitVec.allOnes_xor.symm

/-- Settles O44: both closed forms, and the framing bit keeps the wire byte from 0. -/
theorem wireClosedForm : Obligations.WireClosedForm := by
  have hmin : wire 3#2 3#2 0x70#8 = 0x01#8 := by decide
  have hmax : wire 0#2 0#2 0x00#8 = BitVec.allOnes 8 := by decide
  refine ⟨fun idx ch val => ⟨?_, wire_eq_or_not idx ch val, (wire_and (by decide) idx ch val).symm, ?_, ?_⟩,
    fun idx ch => (wire_eq_wire_iff idx ch _ _).2 (by decide), hmin, hmax, by decide⟩
  · rw [wire_eq_not_or]
    exact BitVec.allOnes_xor.symm
  · rw [hmin]
    exact one_le_of_framed (getLsbD_zero_wire idx ch val)
  · rw [hmax]
    exact BitVec.not_lt.1 BitVec.not_allOnes_lt

end Sys2Proof.Machine

/-! SUPPORT. The transmitter over time (41_transmitter.md R73, R75, R83 to R87): what the accepting edge does, what the
invariant says in each PHASE, and the cycles that are left of the byte in progress, which every edge takes one from. -/

namespace Sys2Proof.Machine

/-! ### The accepting edge -/

theorem edge_eq_accept_iff (s : State) (c : Word) : s.edge = .accept c ↔
    s.port.rst = false ∧ s.launched = true ∧ s.phase = .idle ∧ s.port.cmdValid = true ∧ s.port.cmdData = c := by
  rcases edge_cases s with ⟨hr, e⟩ | ⟨hr, hl, e⟩ | ⟨hr, hl, hp, hv, e⟩ | ⟨hr, hl, hn, e⟩ <;> rw [e]
  · simp [hr]
  · simp [hl]
  · simp [hr, hl, hp, hv]
  · simp only [reduceCtorEq, false_iff]
    tauto

/-- The accepting edge runs the accepted word (41_transmitter.md R75). -/
theorem step_of_edge_accept {s : State} {c : Word} (h : s.edge = .accept c) :
    step s = exec (decode c) s.takeInputs := by
  simp only [step, h]

theorem exec_of_sentByte {i : Instr} {w : Byte} (h : sentByte i = some w) (s : State) :
    exec i s = .next (s.startFrame w) := by
  cases i with
  | send idx ch val => cases h; rfl
  | sendraw eb => cases h; rfl
  | setibd n => cases h
  | rsvd => cases h

/-- SETIBD and RSVD write their register at the accepting edge and nothing of the transmitter
(41_transmitter.md R78, R79). -/
theorem step_of_register_command {s : State} {c : Word} (h : s.edge = .accept c)
    (hop : cmdOp c = 2#2 ∨ cmdOp c = 3#2) :
    ∃ t, step s = .next t ∧ t.ibd = (if cmdOp c = 2#2 then cmdN c else s.ibd) ∧
      t.err = (if cmdOp c = 3#2 then true else s.err) ∧
      t.phase = s.phase ∧ t.txq = s.txq ∧ t.log = s.log ∧ t.launched = s.launched := by
  rw [step_of_edge_accept h]
  rcases hop with hop | hop
  · rw [decode_of_cmdOp_two hop]
    exact ⟨s.takeInputs.setIbd (cmdN c), rfl, by simp [hop]⟩
  · rw [decode_of_cmdOp_three hop]
    exact ⟨s.takeInputs.setErr, rfl, by simp [hop]⟩

/-- A byte starts only where a sending command is accepted. -/
theorem accept_of_startingByte {s : State} {w : Byte} (h : s.startingByte = some w) :
    ∃ c, s.edge = .accept c ∧ sentByte (decode c) = some w := by
  unfold State.startingByte at h
  split at h
  next c hc => exact ⟨c, hc, h⟩
  all_goals cases h

/-- Where neither a command is accepted nor the launch is missing, the edge is a reset or moves the timers alone. -/
theorem next_of_no_accept {s t : State} (hn : ∀ c, s.edge ≠ .accept c) (h : step s = .next t) :
    t = if s.port.rst then s.takeInputs.resetEdge else s.takeInputs.runEdge := by
  rcases edge_cases s with ⟨hr, e⟩ | ⟨hr, -, e⟩ | ⟨-, -, -, -, e⟩ | ⟨hr, -, -, e⟩
  · simpa [step, e, hr, eq_comm] using h
  · simp [step, e] at h
  · exact absurd e (hn _)
  · simpa [step, e, hr, eq_comm] using h

/-! ### The present and the coming inputs -/

/-- Other drives on the ports, now and in the cycles to come. -/
def State.withInputs (p : Drive) (ds : List Drive) (s : State) : State := { s with port := p, host := ds }

theorem takeInputs_eq_withInputs (s : State) :
    s.takeInputs = s.withInputs s.takeInputs.port s.takeInputs.host := by
  rcases takeInputs_cases s with ⟨-, e⟩ | ⟨-, e⟩ <;> rw [e] <;> rfl

/-- The timers read no input. -/
theorem runEdge_withInputs (p : Drive) (ds : List Drive) (s : State) :
    (s.withInputs p ds).runEdge = s.runEdge.withInputs p ds := by
  have hphase : (s.withInputs p ds).phase = s.phase := rfl
  unfold State.runEdge
  rw [hphase]
  cases s.phase with
  | idle => rfl
  | frame =>
    simp only [State.frameEdge, State.endFrame, apply_ite (State.withInputs p ds)]
    rfl
  | pause =>
    simp only [State.pauseEdge, apply_ite (State.withInputs p ds)]
    rfl

/-! ### What an edge does to the transaction level's state -/

@[simp] theorem takeInputs_txn (s : State) : s.takeInputs.txn = s.txn := by simp [State.txn]

@[simp] theorem runEdge_txn (s : State) : s.runEdge.txn = s.txn := by simp [State.txn]

/-- A later reset is the reset of the transaction level (70_reset_and_hazards.md R121). -/
theorem resetEdge_txn {s : State} (hl : s.launched = true) :
    s.resetEdge.txn = s.txn.reset (decide (s.phase ≠ .idle)) := by
  rcases logAfterReset_cases s with ⟨hl', -⟩ | ⟨-, hp, e⟩ | ⟨-, hp, e⟩
  · simp [hl] at hl'
  · simp [State.txn, TxnState.reset, e, hp, Config.ibdReset]
  · simp [State.txn, TxnState.reset, e, hp, Config.ibdReset]

/-- An accepted word takes the step of the transaction level (41_transmitter.md R73, R76 to R79). -/
theorem exec_decode_txn {s t : State} {c : Word} (h : exec (decode c) s = .next t) : t.txn = s.txn.step c := by
  rw [txn_step_decode]
  cases hi : decode c <;> rw [hi] at h <;> cases h <;> rfl

/-! ### What the invariant says in each PHASE -/

section
variable {s : State}

theorem State.Inv.div_pos (h : s.Inv) : 0 < s.params.div := by
  have hwf := h.1
  simp only [Params.wf, Bool.and_eq_true, decide_eq_true_eq] at hwf
  exact hwf.1

theorem timersWf_of_idle (hp : s.phase = .idle) :
    s.timersWf = true ↔ s.txq = true ∧ s.bit = 0 ∧ s.bcnt = 0 ∧ s.dcnt = 0 := by
  simp [State.timersWf, hp]

theorem timersWf_of_frame (hp : s.phase = .frame) : s.timersWf = true ↔
    ∃ w, s.log.getLast? = some (.byte w s.pibd) ∧ s.frm = frameOf w ∧ s.bit ≤ 9 ∧
      s.bcnt < s.params.div ∧ s.dcnt = 0 ∧ s.txq = frameLevel w s.bit := by
  simp only [State.timersWf, hp]
  split
  next w p hlast => simp [hlast, and_assoc]
  next hlast => simp; tauto

theorem timersWf_of_pause (hp : s.phase = .pause) : s.timersWf = true ↔
    ∃ w, s.log.getLast? = some (.byte w s.pibd) ∧ s.txq = true ∧ s.bit = 0 ∧ s.bcnt = 0 ∧
      1 ≤ s.dcnt ∧ s.dcnt ≤ pauseCycles s.params s.pibd := by
  simp only [State.timersWf, hp]
  split
  next w p hlast => simp [hlast]; tauto
  next hlast => simp; tauto

/-- The line rests at 1 outside frames (41_transmitter.md R84, R87). -/
theorem txq_of_not_frame (hw : s.timersWf = true) (hp : s.phase ≠ .frame) : s.txq = true := by
  cases hph : s.phase with
  | idle => exact ((timersWf_of_idle hph).1 hw).1
  | frame => exact absurd hph hp
  | pause =>
    obtain ⟨w, -, htxq, -⟩ := (timersWf_of_pause hph).1 hw
    exact htxq

/-- A frame bit is 0 as the start bit or as a data bit of value 0 (30_encoding.md R50). -/
theorem frameLevel_eq_false_iff (w : Byte) (k : Nat) :
    frameLevel w k = false ↔ k = 0 ∨ (1 ≤ k ∧ k ≤ 8 ∧ w.getLsbD (k - 1) = false) := by
  rcases Nat.eq_zero_or_pos k with h0 | h0
  · simp [frameLevel, h0]
  · rcases Nat.lt_or_ge 8 k with h8 | h8
    · simp [frameLevel, Nat.ne_of_gt h0, Nat.not_le.2 h8]
    · simp [frameLevel, Nat.ne_of_gt h0, h8, Nat.succ_le_iff.2 h0]

/-! ### The timers keep the invariant -/

@[simp] theorem takeInputs_timersWf (s : State) : s.takeInputs.timersWf = s.timersWf := by
  simp [State.timersWf]

theorem startFrame_timersWf (w : Byte) (hD : 0 < s.params.div) (hw : s.timersWf = true) (hp : s.phase = .idle) :
    (s.startFrame w).timersWf = true := by
  obtain ⟨-, -, -, hdcnt⟩ := (timersWf_of_idle hp).1 hw
  refine (timersWf_of_frame (startFrame_phase w s)).2 ⟨w, ?_⟩
  simp [hdcnt, hD, frameLevel]

/-- The end of a frame leaves the timers of `PAUSE` or of `IDLE`. -/
theorem endFrame_timersWf {w : Byte} (hlast : s.log.getLast? = some (.byte w s.pibd)) :
    s.endFrame.timersWf = true := by
  rcases endFrame_cases s with ⟨hP, e⟩ | ⟨hP, e⟩ <;> rw [e]
  · exact (timersWf_of_pause rfl).2 ⟨w, hlast, rfl, rfl, rfl, hP, Nat.le_refl _⟩
  · exact (timersWf_of_idle rfl).2 ⟨rfl, rfl, rfl, rfl⟩

theorem frameEdge_timersWf (hw : s.timersWf = true) (hp : s.phase = .frame) : s.frameEdge.timersWf = true := by
  obtain ⟨w, hlast, hfrm, hbit, hbcnt, hdcnt, htxq⟩ := (timersWf_of_frame hp).1 hw
  rcases frameEdge_cases s with ⟨h0, e⟩ | ⟨h0, h9, e⟩ | ⟨h0, h9, e⟩ <;> rw [e]
  · have hless : s.bcnt - 1 < s.params.div := by omega
    exact (timersWf_of_frame (by exact hp)).2 ⟨w, hlast, hfrm, hbit, hless, hdcnt, htxq⟩
  · have hlevel : s.frm.getLsbD (s.bit + 1) = frameLevel w (s.bit + 1) := by
      rw [hfrm, frameOf_level w _ (by omega)]
    have hless : s.params.div - 1 < s.params.div := by omega
    exact (timersWf_of_frame (by exact hp)).2 ⟨w, hlast, hfrm, h9, hless, hdcnt, hlevel⟩
  · exact endFrame_timersWf hlast

theorem pauseEdge_timersWf (hw : s.timersWf = true) (hp : s.phase = .pause) : s.pauseEdge.timersWf = true := by
  obtain ⟨w, hlast, htxq, hbit, hbcnt, h1, hP⟩ := (timersWf_of_pause hp).1 hw
  rcases pauseEdge_cases s with ⟨h, e⟩ | ⟨h, e⟩ <;> rw [e]
  · have hpos : 1 ≤ s.dcnt - 1 := by omega
    have hle : s.dcnt - 1 ≤ pauseCycles s.params s.pibd := by omega
    exact (timersWf_of_pause (by exact hp)).2 ⟨w, hlast, htxq, hbit, hbcnt, hpos, hle⟩
  · exact (timersWf_of_idle rfl).2 ⟨htxq, hbit, hbcnt, rfl⟩

theorem runEdge_timersWf (hw : s.timersWf = true) : s.runEdge.timersWf = true := by
  rcases runEdge_cases s with ⟨-, e⟩ | ⟨hp, e⟩ | ⟨hp, e⟩ <;> rw [e]
  · exact hw
  · exact frameEdge_timersWf hw hp
  · exact pauseEdge_timersWf hw hp

theorem takeInputs_inv (h : s.Inv) : s.takeInputs.Inv := by
  simpa [State.Inv] using h

theorem runEdge_inv (h : s.Inv) : s.runEdge.Inv := by
  obtain ⟨hwf, hlaunched⟩ := h
  refine ⟨by simpa using hwf, fun hl => ?_⟩
  obtain ⟨hlog, htimers⟩ := hlaunched (by simpa using hl)
  exact ⟨by simpa using hlog, runEdge_timersWf htimers⟩

theorem startFrame_inv {w : Byte} (h : s.Inv) (hp : s.phase = .idle) (hbyte : w.getLsbD 0 = true) :
    (s.startFrame w).Inv := by
  refine ⟨h.1, fun hl => ?_⟩
  obtain ⟨hlog, htimers⟩ := h.2 hl
  exact ⟨logWfFrom_append_byte _ _ _ _ hlog hbyte, startFrame_timersWf w h.div_pos htimers hp⟩

/-! ### The cycles left of the byte in progress -/

/-- The cycles left until `IDLE`, the present one included, by PHASE and the counters (41_transmitter.md R83, R84). -/
def State.cyclesLeft (s : State) : Nat :=
  match s.phase with
  | .idle => 0
  | .frame => (9 - s.bit) * s.params.div + s.bcnt + 1 + pauseCycles s.params s.pibd
  | .pause => s.dcnt

theorem cyclesLeft_of_idle (hp : s.phase = .idle) : s.cyclesLeft = 0 := by simp [State.cyclesLeft, hp]

theorem cyclesLeft_of_frame (hp : s.phase = .frame) :
    s.cyclesLeft = (9 - s.bit) * s.params.div + s.bcnt + 1 + pauseCycles s.params s.pibd := by
  simp [State.cyclesLeft, hp]

theorem cyclesLeft_of_pause (hp : s.phase = .pause) : s.cyclesLeft = s.dcnt := by
  simp [State.cyclesLeft, hp]

@[simp] theorem takeInputs_cyclesLeft (s : State) : s.takeInputs.cyclesLeft = s.cyclesLeft := by
  simp [State.cyclesLeft]

/-- A whole frame and its pause lie before the first cycle of a frame (41_transmitter.md R83, R84). -/
theorem startFrame_cyclesLeft (w : Byte) (hD : 0 < s.params.div) :
    (s.startFrame w).cyclesLeft = frameCycles s.params + pauseCycles s.params s.ibd := by
  rw [cyclesLeft_of_frame (startFrame_phase w s), frameCycles]
  simp only [startFrame_bit, startFrame_bcnt, startFrame_params, startFrame_pibd]
  omega

theorem endFrame_cyclesLeft (s : State) : s.endFrame.cyclesLeft = pauseCycles s.params s.pibd := by
  rcases endFrame_cases s with ⟨hP, e⟩ | ⟨hP, e⟩ <;> rw [e]
  · exact cyclesLeft_of_pause rfl
  · rw [hP]
    exact cyclesLeft_of_idle rfl

theorem frameEdge_cyclesLeft (hw : s.timersWf = true) (hp : s.phase = .frame) :
    s.frameEdge.cyclesLeft + 1 = s.cyclesLeft := by
  obtain ⟨w, -, -, hbit, hbcnt, -⟩ := (timersWf_of_frame hp).1 hw
  rw [cyclesLeft_of_frame hp]
  rcases frameEdge_cases s with ⟨h0, e⟩ | ⟨h0, h9, e⟩ | ⟨h0, h9, e⟩ <;> rw [e]
  · rw [cyclesLeft_of_frame]
    · dsimp only
      omega
    · exact hp
  · have hbits : 9 - s.bit = 9 - (s.bit + 1) + 1 := by omega
    rw [cyclesLeft_of_frame (by simpa using hp), hbits, Nat.succ_mul]
    simp only [driveBit_bit, driveBit_bcnt, driveBit_params, driveBit_pibd]
    omega
  · have hbits : 9 - s.bit = 0 := by omega
    rw [endFrame_cyclesLeft, hbits]
    omega

theorem pauseEdge_cyclesLeft (hw : s.timersWf = true) (hp : s.phase = .pause) :
    s.pauseEdge.cyclesLeft + 1 = s.cyclesLeft := by
  obtain ⟨w, -, -, -, -, h1, -⟩ := (timersWf_of_pause hp).1 hw
  rw [cyclesLeft_of_pause hp]
  rcases pauseEdge_cases s with ⟨h, e⟩ | ⟨h, e⟩ <;> rw [e]
  · rw [cyclesLeft_of_pause]
    · exact Nat.sub_add_cancel h1
    · exact hp
  · rw [cyclesLeft_of_idle rfl]
    omega

/-- Every edge of a byte in progress takes one of its cycles (60_exceptions.md R116). -/
theorem runEdge_cyclesLeft (hw : s.timersWf = true) (hp : s.phase ≠ .idle) :
    s.runEdge.cyclesLeft + 1 = s.cyclesLeft := by
  rcases runEdge_cases s with ⟨h, -⟩ | ⟨h, e⟩ | ⟨h, e⟩
  · exact absurd h hp
  · rw [e, frameEdge_cyclesLeft hw h]
  · rw [e, pauseEdge_cyclesLeft hw h]

/-- The transmitter is at rest when no cycle is left. -/
theorem phase_eq_idle_iff (hw : s.timersWf = true) : s.phase = .idle ↔ s.cyclesLeft = 0 := by
  refine ⟨cyclesLeft_of_idle, fun h => ?_⟩
  cases hp : s.phase with
  | idle => rfl
  | frame =>
    rw [cyclesLeft_of_frame hp] at h
    omega
  | pause =>
    obtain ⟨w, -, -, -, -, h1, -⟩ := (timersWf_of_pause hp).1 hw
    rw [cyclesLeft_of_pause hp] at h
    omega

/-- A frame is on the line while more than its pause is left. -/
theorem phase_eq_frame_iff (hw : s.timersWf = true) :
    s.phase = .frame ↔ pauseCycles s.params s.pibd < s.cyclesLeft := by
  cases hp : s.phase with
  | idle => simp [cyclesLeft_of_idle hp]
  | frame =>
    rw [cyclesLeft_of_frame hp]
    simp only [true_iff]
    omega
  | pause =>
    obtain ⟨w, -, -, -, -, -, hP⟩ := (timersWf_of_pause hp).1 hw
    simp [cyclesLeft_of_pause hp, hP]

/-- The frame bit on the line, from the cycles of the byte that have passed (41_transmitter.md R83). -/
theorem bit_eq_div {t : Nat} (hw : s.timersWf = true) (hp : s.phase = .frame)
    (ht : s.cyclesLeft + t = frameCycles s.params + pauseCycles s.params s.pibd) : s.bit = t / s.params.div := by
  obtain ⟨w, -, -, hbit, hbcnt, -⟩ := (timersWf_of_frame hp).1 hw
  have hle : s.bit * s.params.div ≤ 9 * s.params.div := Nat.mul_le_mul_right _ hbit
  rw [cyclesLeft_of_frame hp, frameCycles, Nat.sub_mul] at ht
  refine (Nat.div_eq_of_lt_le ?_ ?_).symm
  · omega
  · rw [Nat.succ_mul]
    omega

end

/-! ### Runs of a byte in progress -/

/-- What stays as it is while a byte is in progress, whatever the host offers (41_transmitter.md R83, R84). -/
structure State.SameByte (s u : State) : Prop where
  txn : u.txn = s.txn
  pibd : u.pibd = s.pibd
  params : u.params = s.params
  launched : u.launched = s.launched

theorem State.SameByte.trans {s t u : State} (h : s.SameByte t) (h' : t.SameByte u) : s.SameByte u :=
  ⟨h'.txn.trans h.txn, h'.pibd.trans h.pibd, h'.params.trans h.params, h'.launched.trans h.launched⟩

/-- One busy edge: the timers take one cycle, and the rest stays. -/
theorem step_cyclesLeft {s : State} (hi : s.Inv) (hl : s.launched = true) (hr : s.port.rst = false)
    (hleft : 0 < s.cyclesLeft) :
    ∃ t, step s = .next t ∧ t.Inv ∧ s.SameByte t ∧ t.cyclesLeft + 1 = s.cyclesLeft := by
  obtain ⟨-, htimers⟩ := hi.2 hl
  have hbusy : s.phase ≠ .idle := by
    rw [ne_eq, phase_eq_idle_iff htimers]
    omega
  refine ⟨_, step_busy s hl hr hbusy, runEdge_inv (takeInputs_inv hi),
    ⟨by simp, by simp, by simp, by simp⟩, ?_⟩
  rw [runEdge_cyclesLeft (by simpa using htimers) (by simpa using hbusy), takeInputs_cyclesLeft]

/-- As many edges as cycles are left, or fewer, without a reset: each takes one cycle. -/
theorem runEdges_cyclesLeft {s : State} (hi : s.Inv) (hl : s.launched = true) (t : Nat) (ht : t ≤ s.cyclesLeft)
    (hn : noReset t s = true) :
    ∃ u, runEdges t s = .next u ∧ u.Inv ∧ s.SameByte u ∧ u.cyclesLeft + t = s.cyclesLeft := by
  induction t with
  | zero => exact ⟨s, rfl, hi, ⟨rfl, rfl, rfl, rfl⟩, rfl⟩
  | succ t ih =>
    obtain ⟨hn, hlast⟩ := alongRun_split _ t s hn
    obtain ⟨u, hrun, hiu, hsame, hleft⟩ := ih (by omega) hn
    have hr : u.port.rst = false := by simpa using hlast u hrun
    obtain ⟨v, hstep, hiv, hsame', hleft'⟩ := step_cyclesLeft hiu (hsame.launched.trans hl) hr (by omega)
    exact ⟨v, runEdges_succ t s u v hrun hstep, hiv, hsame.trans hsame', by omega⟩

/-- A sending command's accepting edge: the frame of its byte starts. -/
theorem step_of_startingByte {s s1 : State} {w : Byte} (hw : s.startingByte = some w) (h : step s = .next s1) :
    s.launched = true ∧ s.phase = .idle ∧ w.getLsbD 0 = true ∧ s1 = s.takeInputs.startFrame w := by
  obtain ⟨c, hacc, hbyte⟩ := accept_of_startingByte hw
  obtain ⟨-, hl, hp, -⟩ := (edge_eq_accept_iff s c).1 hacc
  rw [step_of_edge_accept hacc, exec_of_sentByte hbyte] at h
  cases h
  exact ⟨hl, hp, getLsbD_zero_of_sentByte hbyte, rfl⟩

/-- The cycle `t` after a sending command was accepted, up to the end of its pause, if no reset is sampled. -/
theorem cycle_of_startingByte {s s1 : State} {w : Byte} {t : Nat} (hi : s.Inv) (hw : s.startingByte = some w)
    (h : step s = .next s1) (ht : t ≤ frameCycles s.params + pauseCycles s.params s.ibd)
    (hn : noReset t s1 = true) :
    ∃ u, runEdges t s1 = .next u ∧ u.timersWf = true ∧ u.txn = s1.txn ∧ u.pibd = s.ibd ∧
      u.params = s.params ∧ u.cyclesLeft + t = frameCycles s.params + pauseCycles s.params s.ibd := by
  obtain ⟨hl, hp, hbyte, rfl⟩ := step_of_startingByte hw h
  have hi1 : (s.takeInputs.startFrame w).Inv := startFrame_inv (takeInputs_inv hi) (by simpa using hp) hbyte
  have hleft1 : (s.takeInputs.startFrame w).cyclesLeft = frameCycles s.params + pauseCycles s.params s.ibd := by
    rw [startFrame_cyclesLeft w (by simpa using hi.div_pos), takeInputs_params, takeInputs_ibd]
  rw [← hleft1] at ht ⊢
  obtain ⟨u, hrun, hiu, hsame, hleft⟩ := runEdges_cyclesLeft hi1 (by simpa using hl) t ht hn
  obtain ⟨-, htimers⟩ := hiu.2 (hsame.launched.trans (by simpa using hl))
  exact ⟨u, hrun, htimers, hsame.txn, by simpa using hsame.pibd, by simpa using hsame.params, hleft⟩

/-! ### The obligations -/

/-- Settles O26: in cycle `t` of a frame the cycles that are left tell PHASE and the frame bit on the line, and the
byte at the end of the log is the one whose levels the invariant puts there. -/
theorem frameSchedule : Obligations.FrameSchedule := by
  intro s s1 w t hi hw hstep ht hn
  obtain ⟨u, hrun, htimers, htxn, hpibd, hparams, hleft⟩ :=
    cycle_of_startingByte hi hw hstep (by rw [frameCycles]; omega) hn
  obtain ⟨-, -, -, rfl⟩ := step_of_startingByte hw hstep
  rw [← hparams, ← hpibd] at hleft
  have hp : u.phase = .frame := by
    rw [phase_eq_frame_iff htimers]
    rw [← hparams] at ht
    rw [frameCycles] at hleft
    omega
  have hlevel : u.txq = frameLevel w (t / s.params.div) := by
    obtain ⟨w', hlast, -, -, -, -, hlevel⟩ := (timersWf_of_frame hp).1 htimers
    have hlog : u.log = s.log ++ [.byte w s.ibd] := by
      simpa [State.txn] using congrArg TxnState.log htxn
    have hbyte : w = w' := by
      simp only [hlog, List.getLast?_concat, Option.some.injEq, Event.byte.injEq] at hlast
      exact hlast.1
    rw [hlevel, hbyte, bit_eq_div htimers hp hleft, hparams]
  exact ⟨by simp, rfl, u, hrun, hp, hlevel, by rw [State.txd, hparams], by simp [State.cmdReady, hp], hpibd, htxn⟩

/-- Settles O27: the cycles that are left tell PAUSE from IDLE, and the invariant has the line at 1 in both. -/
theorem pauseSchedule : Obligations.PauseSchedule := by
  refine ⟨fun s s1 w t hi hw hstep ht hn => ?_, fun s hi hl hp => ?_⟩
  · obtain ⟨u, hrun, htimers, htxn, hpibd, hparams, hleft⟩ := cycle_of_startingByte hi hw hstep ht hn
    have hend : s.ibd.toNat * s.params.unitCycles = pauseCycles s.params s.ibd := rfl
    have hidle := phase_eq_idle_iff htimers
    have hframe := phase_eq_frame_iff htimers
    rw [hparams, hpibd] at hframe
    rw [frameCycles] at hleft
    rw [hend]
    refine ⟨u, hrun, hpibd, htxn, fun hlt => ?_, fun hge => ?_⟩
    · have hbusy : u.phase ≠ .idle := fun hp => by
        have hzero := hidle.1 hp
        omega
      simp [State.cmdReady, hbusy]
    · have hnot : u.phase ≠ .frame := fun hp => by
        have hmore := hframe.1 hp
        omega
      refine ⟨txq_of_not_frame htimers hnot, ?_⟩
      split
      next hlt =>
        cases hp : u.phase with
        | idle =>
          have hzero := hidle.1 hp
          omega
        | frame => exact absurd hp hnot
        | pause => rfl
      next hlt =>
        have hp : u.phase = .idle := hidle.2 (by omega)
        exact ⟨hp, by simp [State.cmdReady, hp]⟩
  · obtain ⟨-, htimers⟩ := hi.2 hl
    refine txq_of_not_frame htimers ?_
    rcases hp with hp | hp <;> simp [hp]

/-- Settles O31: each kind of edge is its transition of the transaction level, or none. -/
theorem cycleRefinesTransaction : Obligations.CycleRefinesTransaction := by
  intro s t hl h
  rcases step_cases s with ⟨hr, e⟩ | ⟨-, hl', -⟩ | ⟨hr, -, hp, hv, e⟩ | ⟨hr, -, hn, e⟩
  · rw [e] at h
    cases h
    rw [if_pos hr, resetEdge_txn (by simpa using hl), takeInputs_txn, takeInputs_phase]
  · simp [hl] at hl'
  · rw [e] at h
    rw [exec_decode_txn h, takeInputs_txn]
    simp [hr, hv, hp, State.cmdReady]
  · rw [e] at h
    cases h
    have hna : ¬(s.port.cmdValid && s.cmdReady) = true := by
      rw [Bool.and_eq_true, cmdReady_iff]
      tauto
    rw [if_neg (by simp [hr]), if_neg hna, runEdge_txn, takeInputs_txn]

/-- Settles O13: where no word is accepted the next state is the reset's or the timers', and neither reads an input
other than `rst`. -/
theorem acceptanceIsTheOnlyInput : Obligations.AcceptanceIsTheOnlyInput := by
  refine ⟨fun s c hl => ?_, fun s c h => step_of_edge_accept h, fun s t t' p hrst hn hn' h h' => ?_⟩
  · rw [edge_eq_accept_iff, cmdReady_iff]
    simp only [hl, true_and, eq_comm (a := c)]
    tauto
  · have hs' : { s with port := p } = s.withInputs p s.host := rfl
    have ht := next_of_no_accept hn h
    have ht' := next_of_no_accept hn' h'
    rw [takeInputs_eq_withInputs] at ht ht'
    rw [show State.port { s with port := p } = p from rfl, hrst, hs'] at ht'
    cases hr : s.port.rst with
    | false =>
      simp only [hr, Bool.false_eq_true, if_false, runEdge_withInputs] at ht ht'
      rw [ht, ht']
      rfl
    | true =>
      simp only [hr, if_true] at ht ht'
      rw [ht, ht']
      rfl

/-- Settles O22: both commands write one register, so the next cycle is idle with its line at 1, and a byte that starts
there takes the IBD it finds. -/
theorem registerCommandsCompleteAtOnce : Obligations.RegisterCommandsCompleteAtOnce := by
  intro s c hi hacc hop
  obtain ⟨-, hl, hp, -⟩ := (edge_eq_accept_iff s c).1 hacc
  obtain ⟨t, hstep, hibd, herr, hphase, htxq, hlog, hlaunched⟩ := step_of_register_command hacc hop
  have hidle : t.phase = .idle := hphase.trans hp
  have hmark : s.txq = true := txq_of_not_frame (hi.2 hl).2 (by simp [hp])
  refine ⟨t, hstep, hibd, herr, rfl, rfl, hidle, htxq.trans hmark, hlog, by simp [State.cmdReady, hidle],
    fun hr hv => ?_⟩
  have hacc' : t.edge = .accept t.port.cmdData :=
    (edge_eq_accept_iff t _).2 ⟨hr, hlaunched.trans hl, hidle, hv, rfl⟩
  refine ⟨hacc', fun w hw => ⟨t.takeInputs.startFrame w, ?_, by simp, by simp [hlog]⟩⟩
  rw [step_of_edge_accept hacc', exec_of_sentByte hw]

/-- Settles O30: the invariant has the line at 1 in IDLE and PAUSE and at the level of the frame bit in FRAME. -/
theorem lineRestsAtMark : Obligations.LineRestsAtMark := by
  refine ⟨fun s hi hl hp => txq_of_not_frame (hi.2 hl).2 hp, fun s hi hl htxq => ?_, fun s t hr h => ?_⟩
  · obtain ⟨-, htimers⟩ := hi.2 hl
    have hp : s.phase = .frame := by
      by_contra hnot
      simp [txq_of_not_frame htimers hnot] at htxq
    obtain ⟨w, hlast, -, -, -, -, hlevel⟩ := (timersWf_of_frame hp).1 htimers
    obtain ⟨l, hlog⟩ := List.getLast?_eq_some_iff.1 hlast
    exact ⟨hp, l, w, hlog, (frameLevel_eq_false_iff w s.bit).1 (hlevel ▸ htxq)⟩
  · rw [step_of_rst hr] at h
    cases h
    exact resetEdge_txq _

end Sys2Proof.Machine

/-! SUPPORT. Values written to the reference host: the later of two writes to one field of a pod stands alone
(45_host_sequence.md R91, R96), and the interval has a floor (R99). -/

namespace Sys2Proof.Machine

/-! ### Two writes to one field -/

theorem Pod.store_brightness_store_brightness (i : BitVec 2) (x y : Nat) (p : Pod) :
    (p.store (.brightness i x)).store (.brightness i y) = p.store (.brightness i y) := by
  by_cases hi : p.index = i
  · simp [Pod.store, hi]
  · simp [Pod.store, hi]

theorem Pod.store_color_store_color (i : BitVec 2) (x y : Nat) (p : Pod) :
    (p.store (.color i x)).store (.color i y) = p.store (.color i y) := by
  by_cases hi : p.index = i
  · simp [Pod.store, hi]
  · simp [Pod.store, hi]

/-- A write that replaces another at every pod replaces it in the host, which stores both pod by pod. -/
theorem RefHost.store_store_of_pod {w w' : PodWrite} (hw : ∀ p : Pod, (p.store w).store w' = p.store w')
    (h : RefHost) : (h.store w).store w' = h.store w' := by
  have hmap : Pod.store w' ∘ Pod.store w = Pod.store w' := funext hw
  simp only [RefHost.store, List.map_map, hmap]

theorem RefHost.setBrightness_setBrightness (i : BitVec 2) (x y : Nat) (h : RefHost) :
    (h.setBrightness i x).setBrightness i y = h.setBrightness i y :=
  store_store_of_pod (Pod.store_brightness_store_brightness i x y) h

theorem RefHost.setColor_setColor (i : BitVec 2) (x y : Nat) (h : RefHost) :
    (h.setColor i x).setColor i y = h.setColor i y :=
  store_store_of_pod (Pod.store_color_store_color i x y) h

/-! ### The update interval -/

@[simp] theorem RefHost.setUpdateInterval_interval (x : ℕ+) (h : RefHost) :
    (h.setUpdateInterval x).interval = max (x : Nat) 500 := rfl

@[simp] theorem RefHost.create_interval (p0 p1 p2 p3 : Nat × Nat) :
    (RefHost.create p0 p1 p2 p3).interval = 1000 := rfl

/-! ### The obligations -/

/-- Settles O56: the second write leaves the host as if the first had not been made, so the ticks agree. -/
theorem repeatedPodWriteIsOne : Obligations.RepeatedPodWriteIsOne := by
  refine ⟨fun h i x t => ?_, fun h i x y => h.setBrightness_setBrightness i x y,
    fun h i x y => h.setColor_setColor i x y⟩
  rw [RefHost.setBrightness_setBrightness]

/-- Settles O57: the floor of 500 is the smaller of the two from `x = 500` on. -/
theorem updateIntervalFloor : Obligations.UpdateIntervalFloor := by
  refine ⟨fun x h => h.setUpdateInterval_interval x, fun x h hx => ?_, RefHost.create_interval⟩
  rw [RefHost.setUpdateInterval_interval, max_eq_left hx]

end Sys2Proof.Machine

/-! SUPPORT. Runs that nothing stops (60_exceptions.md R110), and ERR along a run: what sets and clears it, and that
no other part of the next state reads it (R111). -/

namespace Sys2Proof.Machine

/-! ### Runs that go on -/

theorem exec_launched {i : Instr} {s t : State} (h : exec i s = .next t) : t.launched = s.launched := by
  cases i <;> cases h <;> rfl

/-- Only the missing first reset stops an edge (60_exceptions.md R110, 70_reset_and_hazards.md R122). -/
theorem step_launched {s : State} (hl : s.launched = true) : ∃ t, step s = .next t ∧ t.launched = true := by
  rcases step_cases s with ⟨-, e⟩ | ⟨-, hl', -⟩ | ⟨-, -, -, -, e⟩ | ⟨-, -, -, e⟩
  · exact ⟨_, e, resetEdge_launched _⟩
  · simp [hl] at hl'
  · obtain ⟨t, h⟩ := exec_next (decode s.port.cmdData) s.takeInputs
    exact ⟨t, e.trans h, by simpa [hl] using exec_launched h⟩
  · exact ⟨_, e, by simpa using hl⟩

theorem runEdges_launched {s : State} (hl : s.launched = true) (n : Nat) :
    ∃ t, runEdges n s = .next t ∧ t.launched = true := by
  induction n with
  | zero => exact ⟨s, rfl, hl⟩
  | succ n ih =>
    obtain ⟨t, hrun, hlt⟩ := ih
    obtain ⟨u, hstep, hlu⟩ := step_launched hlt
    exact ⟨u, runEdges_succ n s t u hrun hstep, hlu⟩

theorem runEdges_of_step {s t : State} (h : step s = .next t) (n : Nat) : runEdges (n + 1) s = runEdges n t := by
  simp only [runEdges, h]

/-- A run goes on from a state it has reached. -/
theorem runEdges_add_of_next {k : Nat} {s u : State} (h : runEdges k s = .next u) (m : Nat) :
    runEdges (k + m) s = runEdges m u := by
  induction k generalizing u m with
  | zero =>
    cases h
    rw [Nat.zero_add]
  | succ k ih =>
    obtain ⟨v, hrun, hstep⟩ := runEdges_split k s u h
    rw [Nat.add_assoc, Nat.add_comm 1, ih hrun, runEdges_of_step hstep]

/-! ### What sets and clears ERR -/

theorem exec_err {i : Instr} {s t : State} (h : exec i s = .next t) :
    t.err = (decide (i.opcode = 3#2) || s.err) := by
  cases i <;> cases h <;> rfl

/-- ERR after an edge: set by the acceptance of a reserved command, cleared by a sampled reset, and otherwise as it
was (10_state.md R25, 60_exceptions.md R111). -/
theorem step_err {s t : State} (h : step s = .next t) :
    t.err = (!s.port.rst && (s.acceptsReserved || s.err)) := by
  rcases edge_cases s with ⟨hr, e⟩ | ⟨-, -, e⟩ | ⟨hr, -, -, -, e⟩ | ⟨hr, -, -, e⟩ <;>
    simp only [step, e, Host.Outcome.next.injEq, reduceCtorEq] at h
  · simp [← h, hr]
  · simp [exec_err h, State.acceptsReserved, e, hr]
  · simp [← h, State.acceptsReserved, e, hr]

/-- Where ERR has come to be set, a reserved command was accepted and no reset sampled since. -/
theorem reserved_of_err {n : Nat} {s t : State} (hs : s.err = false) (h : runEdges n s = .next t)
    (ht : t.err = true) :
    ∃ k u, k < n ∧ runEdges k s = .next u ∧ u.acceptsReserved = true ∧ noReset (n - k) u = true := by
  induction n generalizing t with
  | zero =>
    cases h
    simp [hs] at ht
  | succ n ih =>
    obtain ⟨v, hrun, hstep⟩ := runEdges_split n s t h
    have hcause : v.port.rst = false ∧ (v.acceptsReserved = true ∨ v.err = true) := by
      simpa [ht] using step_err hstep
    obtain ⟨hr, hres | herr⟩ := hcause
    · refine ⟨n, v, n.lt_succ_self, hrun, hres, ?_⟩
      rw [Nat.add_sub_cancel_left]
      exact alongRun_succ _ 0 v v rfl rfl (by simp [hr])
    · obtain ⟨k, u, hk, hu, hres, hn⟩ := ih hrun herr
      have huv : runEdges (n - k) u = .next v := by
        rw [← runEdges_add_of_next hu, Nat.add_sub_cancel' hk.le, hrun]
      refine ⟨k, u, by omega, hu, hres, ?_⟩
      rw [Nat.succ_sub hk.le]
      exact alongRun_succ _ (n - k) u v hn huv (by simp [hr])

/-! ### What reads ERR -/

/-- Another value of ERR in the present cycle. -/
def State.withErr (e : Bool) (s : State) : State := { s with err := e }

theorem takeInputs_withErr (e : Bool) (s : State) : (s.withErr e).takeInputs = s.takeInputs.withErr e := by
  unfold State.takeInputs
  rw [apply_ite (State.withErr e)]
  cases hh : s.host with
  | nil => simp [State.withErr, State.cmdReady, hh]
  | cons d ds => simp [State.withErr, State.cmdReady, hh]

theorem runEdge_withErr (e : Bool) (s : State) : (s.withErr e).runEdge = s.runEdge.withErr e := by
  have hphase : (s.withErr e).phase = s.phase := rfl
  unfold State.runEdge
  rw [hphase]
  cases s.phase with
  | idle => rfl
  | frame =>
    simp only [State.frameEdge, State.endFrame, apply_ite (State.withErr e)]
    rfl
  | pause =>
    simp only [State.pauseEdge, apply_ite (State.withErr e)]
    rfl

/-- No command reads ERR (60_exceptions.md R111); RSVD overwrites it. -/
theorem exec_withErr (e : Bool) {i : Instr} {s t : State} (h : exec i s = .next t) :
    ∃ e', exec i (s.withErr e) = .next (t.withErr e') := by
  cases i <;> cases h
  case rsvd => exact ⟨true, rfl⟩
  all_goals exact ⟨e, rfl⟩

theorem step_withErr (e : Bool) {s t : State} (h : step s = .next t) :
    ∃ e', step (s.withErr e) = .next (t.withErr e') := by
  rcases step_cases s with ⟨hr, eq⟩ | ⟨-, -, eq⟩ | ⟨hr, hl, hp, hv, eq⟩ | ⟨hr, hl, hn, eq⟩ <;> rw [eq] at h
  · cases h
    exact ⟨false, by rw [step_of_rst (s := s.withErr e) hr, takeInputs_withErr]; rfl⟩
  · cases h
  · obtain ⟨e', h'⟩ := exec_withErr e h
    exact ⟨e', by rw [step_of_accept (s := s.withErr e) hr hl hp hv, takeInputs_withErr]; exact h'⟩
  · cases h
    exact ⟨e, by rw [step_of_run (s := s.withErr e) hr hl hn, takeInputs_withErr, runEdge_withErr]⟩

theorem runEdges_withErr (e : Bool) {n : Nat} {s t : State} (h : runEdges n s = .next t) :
    ∃ e', runEdges n (s.withErr e) = .next (t.withErr e') := by
  induction n generalizing t with
  | zero =>
    cases h
    exact ⟨e, rfl⟩
  | succ n ih =>
    obtain ⟨u, hrun, hstep⟩ := runEdges_split n s t h
    obtain ⟨e', hrun'⟩ := ih hrun
    obtain ⟨e'', hstep'⟩ := step_withErr e' hstep
    exact ⟨e'', runEdges_succ _ _ _ _ hrun' hstep'⟩

/-! ### The obligations -/

/-- Settles O10: every instruction has a next state, and a launched edge goes on to a launched state. -/
theorem noRunIsStopped : Obligations.NoRunIsStopped :=
  ⟨exec_next, fun n _ hl => runEdges_launched hl n⟩

/-- Settles O25: an edge that leaves ERR at 1 was no reset, and it accepted a reserved command or found ERR at 1, which
leads back to such an edge; and no edge reads ERR but to keep it. -/
theorem errHasOneCauseAndNoEffect : Obligations.ErrHasOneCauseAndNoEffect :=
  ⟨fun _ _ _ _ hs h ht => reserved_of_err hs h ht, fun _ _ _ e h => runEdges_withErr e h⟩

end Sys2Proof.Machine

/-! SUPPORT. Reset (70_reset_and_hazards.md R120 to R123): the outputs and the log after a reset edge, the byte that a
reset outside IDLE finds in progress, and the refusal before the first reset. -/

namespace Sys2Proof.Machine

/-! ### The outputs around a reset edge -/

/-- No command is accepted at a reset edge (70_reset_and_hazards.md R120, 10_state.md R22). -/
theorem cmdReady_of_rst {s : State} (hr : s.port.rst = true) : s.cmdReady = false := by
  simp [State.cmdReady, hr]

/-- `cmd_ready` after a reset edge waits for nothing but the end of the reset (70_reset_and_hazards.md R123). -/
@[simp] theorem resetEdge_cmdReady (s : State) : s.resetEdge.cmdReady = !s.port.rst := by
  simp [State.cmdReady]

/-- The line is idle after a reset edge (70_reset_and_hazards.md R120). -/
@[simp] theorem resetEdge_txd (s : State) : s.resetEdge.txd = xor true s.params.txdInvert := rfl

/-! ### The log and the byte in progress -/

@[simp] theorem takeInputs_logAfterReset (s : State) : s.takeInputs.logAfterReset = s.logAfterReset := by
  simp [State.logAfterReset]

/-- A later reset keeps the log and marks what it cuts (70_reset_and_hazards.md R121). -/
theorem logAfterReset_of_launched {s : State} (hl : s.launched = true) :
    s.logAfterReset = if s.phase = .idle then s.log else s.log ++ [.abort] := by
  rw [State.logAfterReset, if_pos hl]

/-- Outside IDLE the log ends with the byte in progress, whose pause is PIBD. -/
theorem log_of_busy {s : State} (hw : s.timersWf = true) (hp : s.phase ≠ .idle) :
    ∃ l w, s.log = l ++ [.byte w s.pibd] := by
  have hlast : ∃ w, s.log.getLast? = some (.byte w s.pibd) := by
    cases hph : s.phase with
    | idle => exact absurd hph hp
    | frame =>
      obtain ⟨w, hlast, -⟩ := (timersWf_of_frame hph).1 hw
      exact ⟨w, hlast⟩
    | pause =>
      obtain ⟨w, hlast, -⟩ := (timersWf_of_pause hph).1 hw
      exact ⟨w, hlast⟩
  obtain ⟨w, hlast⟩ := hlast
  obtain ⟨l, hlog⟩ := List.getLast?_eq_some_iff.1 hlast
  exact ⟨l, w, hlog⟩

/-! ### Before the first reset -/

theorem step_of_unlaunched {s : State} (hr : s.port.rst = false) (hl : s.launched = false) :
    step s = .refused .beforeFirstReset := by
  simp [step, State.edge, hr, hl]

/-! ### The obligations -/

/-- Settles O3: the invariant has the byte in progress at the end of the log, and the reset edge appends `Abort` to
that log and rests in IDLE. -/
theorem resetCutsByteAndLogsAbort : Obligations.ResetCutsByteAndLogsAbort := by
  intro s hi hl hr hp
  obtain ⟨-, htimers⟩ := hi.2 hl
  obtain ⟨l, w, hlog⟩ := log_of_busy htimers hp
  have hcut : s.takeInputs.logAfterReset = l ++ [.byte w s.pibd, .abort] := by
    rw [takeInputs_logAfterReset, logAfterReset_of_launched hl, if_neg hp, hlog, List.append_assoc,
      List.singleton_append]
  exact ⟨l, w, hlog, _, step_of_rst hr, hcut, resetEdge_phase _, resetEdge_txq _, resetEdge_txd _,
    resetEdge_cmdReady _⟩

/-- Settles O2: the edge is the reset edge in every state, and the host's drives move no register before it. -/
theorem resetEdgeLoadsResetValues : Obligations.ResetEdgeLoadsResetValues := by
  intro s hr
  have hlog (hl : s.launched = true) : s.takeInputs.resetEdge.log =
      if s.phase = .idle then s.log else s.log ++ [.abort] := by
    rw [resetEdge_log, takeInputs_logAfterReset, logAfterReset_of_launched hl]
  refine ⟨cmdReady_of_rst hr, _, step_of_rst hr, resetEdge_ibd _, resetEdge_err _, resetEdge_phase _,
    resetEdge_txq _, resetEdge_bit _, resetEdge_bcnt _, resetEdge_dcnt _, resetEdge_pibd _, hlog,
    resetEdge_err _, resetEdge_ibd _, ?_, resetEdge_cmdReady _, rfl, rfl,
    takeInputs_params s⟩
  rw [resetEdge_txd, takeInputs_params]

/-- Settles O4: the reset edge leaves a launched machine in IDLE, which is all that acceptance asks besides the
inputs. -/
theorem firstEdgeAfterResetAccepts : Obligations.FirstEdgeAfterResetAccepts := by
  intro s t hr h htr
  rw [step_of_rst hr] at h
  cases h
  exact ⟨(cmdReady_iff _).2 ⟨htr, resetEdge_phase _⟩,
    step_of_accept htr (resetEdge_launched _) (resetEdge_phase _)⟩

/-- Settles O5: without a reset there is no next state, and the first reset edge launches. -/
theorem runWithoutResetIsRefused : Obligations.RunWithoutResetIsRefused := fun _ hl =>
  ⟨fun hr => step_of_unlaunched hr hl, fun hr => ⟨_, step_of_rst hr, resetEdge_launched _⟩⟩

end Sys2Proof.Machine

/-! SUPPORT. The encoder and the decoder as inverses: the fields the encoder writes, and the word with its ignored bits
cleared (30_encoding.md R42 to R45, R52). -/

namespace Sys2Proof

/-! ### The fields of an encoded word -/

/-- The encoder writes the instruction's opcode in bits 15:14 (30_encoding.md R42). -/
@[simp] theorem cmdOp_encode (i : Instr) : cmdOp (encode i) = i.opcode := by
  cases i with
  | send idx ch val => exact (Laws.TableRow.send idx ch val).1
  | sendraw eb => exact (Laws.TableRow.sendraw eb).1
  | setibd n => exact (Laws.TableRow.setibd n).1
  | rsvd => exact Laws.TableRow.rsvd.1

@[simp] theorem cmdIdx_encode_send (idx : BitVec 2) (ch : Channel) (val : Byte) :
    cmdIdx (encode (.send idx ch val)) = idx := by
  ext k hk
  interval_cases k <;> simp [cmdIdx, encode]

@[simp] theorem cmdCh_encode_send (idx : BitVec 2) (ch : Channel) (val : Byte) :
    cmdCh (encode (.send idx ch val)) = ch.bits := by
  ext k hk
  interval_cases k <;> simp [cmdCh, encode]

@[simp] theorem cmdByte_encode_send (idx : BitVec 2) (ch : Channel) (val : Byte) :
    cmdByte (encode (.send idx ch val)) = val := by
  ext k hk
  interval_cases k <;> simp [cmdByte, encode]

@[simp] theorem cmdByte_encode_sendraw (eb : Byte) : cmdByte (encode (.sendraw eb)) = eb := by
  ext k hk
  interval_cases k <;> simp [cmdByte, encode]

@[simp] theorem cmdN_encode_setibd (n : Delay) : cmdN (encode (.setibd n)) = n := by
  ext k hk
  interval_cases k <;> simp [cmdN, encode]

@[simp] theorem decode_encode (i : Instr) : decode (encode i) = i := by
  have hop := cmdOp_encode i
  cases i with
  | send idx ch val => simp [decode_of_cmdOp_zero hop]
  | sendraw eb => simp [decode_of_cmdOp_one hop]
  | setibd n => simp [decode_of_cmdOp_two hop]
  | rsvd => exact decode_of_cmdOp_three hop

/-! ### The word that the decoded instruction encodes to -/

/-- Bits 15:14 of a word are its opcode. -/
theorem getElem_opcode (w : Word) : w[14] = (cmdOp w)[0] ∧ w[15] = (cmdOp w)[1] := by
  simp [cmdOp, BitVec.getLsbD_eq_getElem]

/-- The opcode in front of the operand fields is the word without its ignored bits (30_encoding.md R42, R44). -/
theorem encode_decode (c : Word) : encode (decode c) = c &&& ~~~ignoredBits (decode c) := by
  obtain ⟨h14, h15⟩ := getElem_opcode c
  rcases cmdOp_cases c with h | h | h | h <;> simp only [h] at h14 h15
  · rw [decode_of_cmdOp_zero h, ignoredBits]
    ext k hk
    interval_cases k <;> simp [encode, bits_channelOf, cmdIdx, cmdCh, cmdByte, BitVec.getLsbD_eq_getElem, h14, h15]
  · rw [decode_of_cmdOp_one h, ignoredBits]
    ext k hk
    interval_cases k <;> simp [encode, cmdByte, BitVec.getLsbD_eq_getElem, h14, h15]
  · rw [decode_of_cmdOp_two h, ignoredBits]
    ext k hk
    interval_cases k <;> simp [encode, cmdN, BitVec.getLsbD_eq_getElem, h14, h15]
  · rw [decode_of_cmdOp_three h, ignoredBits]
    exact ((and_opcodeMask c).trans (congrArg opcodePattern h)).symm

/-! ### The encoded word as a number -/

/-- Fields that share no bit are joined by addition (30_encoding.md R52). -/
theorem encode_send_eq_ofNat (idx : BitVec 2) (ch : Channel) (val : Byte) : encode (.send idx ch val) =
    BitVec.ofNat 16 (idx.toNat * 1024 + ch.bits.toNat * 256 + val.toNat) := by
  have hch : (idx.setWidth 16 <<< 10) &&& (ch.bits.setWidth 16 <<< 8) = 0#16 := by
    ext k hk
    interval_cases k <;> simp
  have hval : ((idx.setWidth 16 <<< 10) ||| (ch.bits.setWidth 16 <<< 8)) &&& val.setWidth 16 = 0#16 := by
    ext k hk
    interval_cases k <;> simp
  rw [encode, BitVec.zero_or, ← BitVec.add_eq_or_of_and_eq_zero _ _ hval, ← BitVec.add_eq_or_of_and_eq_zero _ _ hch]
  bv_omega

/-- An operand of bits 13:0 is joined to the opcode by addition. -/
theorem opcodePattern_or_field (op : BitVec 2) (n : Delay) :
    opcodePattern op ||| n.setWidth 16 = BitVec.ofNat 16 (op.toNat * 16384 + n.toNat) := by
  have hdisj : opcodePattern op &&& n.setWidth 16 = 0#16 := by
    ext k hk
    interval_cases k <;> simp [opcodePattern]
  rw [← BitVec.add_eq_or_of_and_eq_zero _ _ hdisj, opcodePattern]
  bv_omega

theorem encode_sendraw_eq_ofNat (eb : Byte) : encode (.sendraw eb) = BitVec.ofNat 16 (0x4000 + eb.toNat) := by
  have hfield : eb.setWidth 16 = (eb.setWidth 14).setWidth 16 := by bv_omega
  have h := opcodePattern_or_field 1#2 (eb.setWidth 14)
  rw [← hfield] at h
  refine h.trans ?_
  bv_omega

theorem encode_setibd_eq_ofNat (n : Delay) : encode (.setibd n) = BitVec.ofNat 16 (0x8000 + n.toNat) :=
  opcodePattern_or_field 2#2 n

/-- RSVD's optional operand stays in the assembled word (30_encoding.md R52; log 14). -/
theorem encode_rsvd_or_ofNat {k : Nat} (hk : k < 16384) :
    encode .rsvd ||| BitVec.ofNat 16 k = BitVec.ofNat 16 (0xC000 + k) := by
  have hfield : (BitVec.ofNat 14 k).setWidth 16 = BitVec.ofNat 16 k := by bv_omega
  have h := opcodePattern_or_field 3#2 (BitVec.ofNat 14 k)
  rw [hfield] at h
  refine h.trans ?_
  bv_omega

end Sys2Proof

namespace Sys2Proof.Machine

/-! ### The assembler's answer for a checked line -/

theorem assemble_of_check_ok {l : AsmLine} (h : l.check = .ok ()) (r : List Pod) :
    assemble r l = .ok (AsmLine.words r l) := by simp [assemble, h]

theorem assemble_of_check_error {l : AsmLine} {e : AsmError} (h : l.check = .error e) (r : List Pod) :
    assemble r l = .error e := by simp [assemble, h]

theorem check_send_eq_ok {i c v : Nat} (hi : i < 4) (hc : c < 4) (hv : v < 256) :
    (AsmLine.send i (.number c) v).check = .ok () := by
  simp [AsmLine.check, ChannelOperand.check, hi, hc, hv]

theorem check_send_eq_error {i c v : Nat} (h : 4 ≤ i ∨ 4 ≤ c ∨ 256 ≤ v) :
    ∃ e, (AsmLine.send i (.number c) v).check = .error e := by
  by_cases hi : i < 4
  · by_cases hc : c < 4
    · have hv : ¬v < 256 := by omega
      exact ⟨.valueOutOfRange v, by simp only [AsmLine.check, ChannelOperand.check, if_pos hi, if_pos hc, if_neg hv]⟩
    · exact ⟨.channelOutOfRange c, by simp only [AsmLine.check, ChannelOperand.check, if_pos hi, if_neg hc]⟩
  · exact ⟨.indexOutOfRange i, by simp only [AsmLine.check, if_neg hi]⟩

/-- The assembled SEND in the arithmetic form of R52. -/
theorem words_send {i c v : Nat} (hi : i < 4) (hc : c < 4) (hv : v < 256) (r : List Pod) :
    AsmLine.words r (.send i (.number c) v) = [BitVec.ofNat 16 (i * 1024 + c * 256 + v)] := by
  rw [AsmLine.words, ChannelOperand.channel, encode_send_eq_ofNat, bits_channelOf]
  simp [Nat.mod_eq_of_lt, hi, hc, hv]

/-! ### The obligations -/

/-- Settles O39: the fields of the encoded word are the operands, and its opcode is the instruction's. -/
theorem decodeEncodeRoundTrip : Obligations.DecodeEncodeRoundTrip := decode_encode

/-- Settles O40: each row's operand fields are all that its ignored bits leave of bits 13:0. -/
theorem encodeDecodeClearsIgnoredBits : Obligations.EncodeDecodeClearsIgnoredBits := encode_decode

/-- Settles O41: closed words, by computing the decoder. -/
theorem tableWordsDecode : Obligations.TableWordsDecode := by
  refine ⟨?_, ?_, ?_, ?_, ?_⟩ <;> decide

/-- Settles O51: a line in range assembles to its word, whose fields are joined by addition, and every other line is
refused by its check. -/
theorem assemblerWords : Obligations.AssemblerWords := by
  intro r i c v
  refine ⟨fun hi hc hv => ?_, fun hv => ?_, fun hv => ?_, fun hv => ?_, rfl, fun h => ?_, fun hv => ?_, fun hv => ?_,
    fun hv => ?_⟩
  · rw [assemble_of_check_ok (check_send_eq_ok hi hc hv), words_send hi hc hv]
  · rw [assemble_of_check_ok (by simp only [AsmLine.check, if_pos hv]), AsmLine.words, encode_sendraw_eq_ofNat,
      BitVec.toNat_ofNat, Nat.mod_eq_of_lt hv]
  · rw [assemble_of_check_ok (by simp only [AsmLine.check, if_pos hv]), AsmLine.words, encode_setibd_eq_ofNat,
      BitVec.toNat_ofNat, Nat.mod_eq_of_lt hv]
  · rw [assemble_of_check_ok (by simp only [AsmLine.check, if_pos hv]), AsmLine.words, encode_rsvd_or_ofNat hv]
  · obtain ⟨e, he⟩ := check_send_eq_error h
    exact ⟨e, assemble_of_check_error he r⟩
  · exact assemble_of_check_error (by simp only [AsmLine.check, if_neg (Nat.not_lt.2 hv)]) r
  · exact assemble_of_check_error (by simp only [AsmLine.check, if_neg (Nat.not_lt.2 hv)]) r
  · exact assemble_of_check_error (by simp only [AsmLine.check, if_neg (Nat.not_lt.2 hv)]) r

end Sys2Proof.Machine

/-! SUPPORT. What every edge and every run keeps: the invariant, the parameters, the events already logged, ERR until a
reset, and a transmitter that starts no frame of its own (41_transmitter.md R70, R86, 20_memory.md R31). -/

namespace Sys2Proof.Machine

/-! ### What a run keeps -/

/-- What every step keeps, every run keeps. -/
theorem runEdges_keeps {R : State → Prop} (hkeep : ∀ u v, R u → step u = .next v → R v) {n : Nat} {s t : State}
    (hs : R s) (h : runEdges n s = .next t) : R t := by
  induction n generalizing t with
  | zero =>
    cases h
    exact hs
  | succ n ih =>
    obtain ⟨u, hrun, hstep⟩ := runEdges_split n s t h
    exact hkeep u t (ih hrun) hstep

/-- What every step from a cycle with `P` keeps stays, from cycle `m` of a run on, as long as the run is along `P`. -/
theorem runEdges_keeps_along {P : State → Bool} {R : State → Prop}
    (hkeep : ∀ u v, P u = true → R u → step u = .next v → R v) {m n : Nat} {s t : State} (hmn : m ≤ n)
    (hP : alongRun P n s = true) (hm : ∀ u, runEdges m s = .next u → R u) (h : runEdges n s = .next t) : R t := by
  induction n, hmn using Nat.le_induction generalizing t with
  | base => exact hm t h
  | succ n hmn ih =>
    obtain ⟨hP, hlast⟩ := alongRun_split P n s hP
    obtain ⟨u, hrun, hstep⟩ := runEdges_split n s t h
    exact hkeep u t (hlast u hrun) (ih hP hrun) hstep

/-! ### The invariant -/

section
variable {s t : State}

theorem setIbd_inv (n : Delay) (h : s.Inv) : (s.setIbd n).Inv := h

theorem setErr_inv (h : s.Inv) : s.setErr.Inv := h

/-- The log stays well formed at a reset, because the byte that an `Abort` cuts stands at its end
(70_reset_and_hazards.md R121). -/
theorem logAfterReset_logWf (h : s.Inv) : logWf s.logAfterReset = true := by
  rcases logAfterReset_cases s with ⟨-, e⟩ | ⟨hl, -, e⟩ | ⟨hl, hp, e⟩ <;> rw [e]
  · rfl
  · exact (h.2 hl).1
  · obtain ⟨hlog, htimers⟩ := h.2 hl
    obtain ⟨l, w, hlast⟩ := log_of_busy htimers hp
    rw [hlast] at hlog ⊢
    exact logWfFrom_append_abort false l w s.pibd hlog

theorem resetEdge_inv (h : s.Inv) : s.resetEdge.Inv :=
  ⟨h.1, fun _ => ⟨logAfterReset_logWf h, (timersWf_of_idle (resetEdge_phase s)).2 ⟨rfl, rfl, rfl, rfl⟩⟩⟩

/-- An accepted command keeps the invariant: a sending one finds the transmitter at rest (41_transmitter.md R75). -/
theorem exec_inv {i : Instr} (hi : s.Inv) (hp : s.phase = .idle) (h : exec i s = .next t) : t.Inv := by
  cases i with
  | send idx ch val => cases h; exact startFrame_inv hi hp (getLsbD_zero_wire idx ch.bits val)
  | sendraw eb => cases h; exact startFrame_inv hi hp (getLsbD_zero_wireCode eb)
  | setibd n => cases h; exact setIbd_inv n hi
  | rsvd => cases h; exact setErr_inv hi

theorem step_inv (hi : s.Inv) (h : step s = .next t) : t.Inv := by
  have hi' : s.takeInputs.Inv := takeInputs_inv hi
  rcases step_cases s with ⟨-, e⟩ | ⟨-, -, e⟩ | ⟨-, -, hp, -, e⟩ | ⟨-, -, -, e⟩ <;> rw [e] at h
  · cases h
    exact resetEdge_inv hi'
  · cases h
  · exact exec_inv hi' (by simpa using hp) h
  · cases h
    exact runEdge_inv hi'

/-! ### The parameters and the log -/

theorem exec_params {i : Instr} (h : exec i s = .next t) : t.params = s.params := by
  cases i <;> cases h <;> rfl

/-- No edge writes a parameter (00_scope.md R6). -/
theorem step_params (h : step s = .next t) : t.params = s.params := by
  rcases step_cases s with ⟨-, e⟩ | ⟨-, -, e⟩ | ⟨-, -, -, -, e⟩ | ⟨-, -, -, e⟩ <;> rw [e] at h
  · cases h
    simp
  · cases h
  · simpa using exec_params h
  · cases h
    simp

/-- A command appends its event, or nothing (41_transmitter.md R76 to R79). -/
theorem exec_log_prefix {i : Instr} (h : exec i s = .next t) : s.log <+: t.log := by
  cases i <;> cases h
  case send | sendraw => exact List.prefix_append _ _
  case setibd | rsvd => exact List.prefix_rfl

/-- A launched edge removes no event (20_memory.md R31, 70_reset_and_hazards.md R121). -/
theorem step_log_prefix (hl : s.launched = true) (h : step s = .next t) : s.log <+: t.log := by
  rcases step_cases s with ⟨-, e⟩ | ⟨-, -, e⟩ | ⟨-, -, -, -, e⟩ | ⟨-, -, -, e⟩ <;> rw [e] at h
  · cases h
    rw [resetEdge_log, takeInputs_logAfterReset, logAfterReset_of_launched hl]
    split
    · exact List.prefix_rfl
    · exact List.prefix_append _ _
  · cases h
  · simpa using exec_log_prefix h
  · cases h
    simp

theorem launched_of_step (hl : s.launched = true) (h : step s = .next t) : t.launched = true := by
  obtain ⟨u, hstep, hlu⟩ := step_launched hl
  rw [hstep] at h
  cases h
  exact hlu

/-! ### No frame but from a sending command -/

theorem exec_phase_of_register {i : Instr} (hi : sentByte i = none) (h : exec i s = .next t) : t.phase = s.phase := by
  cases i <;> cases h
  case send | sendraw => cases hi
  case setibd | rsvd => rfl

/-- The timers never go back into a frame (41_transmitter.md R83, R84). -/
theorem runEdge_phase_ne_frame (hp : s.phase ≠ .frame) : s.runEdge.phase ≠ .frame := by
  rcases runEdge_cases s with ⟨-, e⟩ | ⟨h, -⟩ | ⟨-, e⟩
  · rwa [e]
  · exact absurd h hp
  · rw [e]
    rcases pauseEdge_cases s with ⟨-, e'⟩ | ⟨-, e'⟩ <;> rw [e']
    · exact hp
    · simp

/-- Where no byte starts, no frame begins (41_transmitter.md R70). -/
theorem step_phase_ne_frame (hn : s.startingByte = none) (hp : s.phase ≠ .frame) (h : step s = .next t) :
    t.phase ≠ .frame := by
  rcases edge_cases s with ⟨-, e⟩ | ⟨-, -, e⟩ | ⟨-, -, -, -, e⟩ | ⟨-, -, -, e⟩ <;>
    simp only [step, e, Host.Outcome.next.injEq, reduceCtorEq] at h
  · simp [← h]
  · have hreg : sentByte (decode s.port.cmdData) = none := by simpa [State.startingByte, e] using hn
    rw [exec_phase_of_register hreg h]
    simpa using hp
  · rw [← h]
    exact runEdge_phase_ne_frame (by simpa using hp)

end

/-! ### A run that has ended -/

/-- Where `cmd_ready` is 1 the next listed drive comes on the ports, or the quiet one (log 3, log 4). -/
theorem takeInputs_of_ready {s : State} (h : s.cmdReady = true) : s.takeInputs =
    { s with port := s.host.headD ⟨false, false, s.port.cmdData, false⟩, host := s.host.tail } := by
  rcases takeInputs_cases s with ⟨⟨-, -, hn⟩, -⟩ | ⟨-, e⟩
  · simp [h] at hn
  · exact e

/-- The run has ended in a launched machine whose host lists no reset (70_reset_and_hazards.md R137). -/
structure State.AtEnd (s : State) : Prop where
  launched : s.launched = true
  ended : s.runEnded = true
  noReset : ∀ d ∈ s.host, d.rst = false

/-- At the end of a run an edge moves the host's drives and nothing else. -/
theorem step_of_atEnd {s : State} (h : s.AtEnd) : step s = .next s.takeInputs := by
  obtain ⟨hready, hv, -⟩ := (runEnded_iff s).1 h.ended
  obtain ⟨hr, hp⟩ := (cmdReady_iff s).1 hready
  rw [step_of_run hr h.launched (by simp [hv]), State.runEdge, takeInputs_phase, hp]

theorem takeInputs_atEnd {s : State} (h : s.AtEnd) : s.takeInputs.AtEnd := by
  obtain ⟨hready, hv, hhost⟩ := (runEnded_iff s).1 h.ended
  obtain ⟨hr, hp⟩ := (cmdReady_iff s).1 hready
  have hnoReset := h.noReset
  rw [takeInputs_of_ready hready]
  cases hh : s.host with
  | nil => exact ⟨h.launched, by simp [runEnded_iff, cmdReady_iff, hp], by simp⟩
  | cons d ds =>
    rw [hh] at hhost hnoReset
    obtain ⟨hdv, hdsv⟩ := List.forall_mem_cons.1 hhost
    obtain ⟨hdr, hdsr⟩ := List.forall_mem_cons.1 hnoReset
    exact ⟨h.launched, by simpa [runEnded_iff, cmdReady_iff, hp, hdr, hdv] using hdsv, hdsr⟩

/-- Every run goes on from its end with its line and the transaction level's state as they are. -/
theorem runEdges_of_atEnd {s : State} (h : s.AtEnd) (n : Nat) :
    ∃ t, runEdges n s = .next t ∧ t.AtEnd ∧ t.txn = s.txn ∧ t.txq = s.txq := by
  induction n with
  | zero => exact ⟨s, rfl, h, rfl, rfl⟩
  | succ n ih =>
    obtain ⟨t, hrun, hend, htxn, htxq⟩ := ih
    exact ⟨t.takeInputs, runEdges_succ n s t _ hrun (step_of_atEnd hend), takeInputs_atEnd hend,
      by rw [takeInputs_txn, htxn], by rw [takeInputs_txq, htxq]⟩

/-! ### The obligations -/

/-- Settles O9: each kind of edge keeps the invariant, and a sending command finds the transmitter at rest. -/
theorem stepKeepsInvariant : Obligations.StepKeepsInvariant := fun _ _ => step_inv

/-- Settles O28: an accepted command finds no cycle left of the frame and the pause; and from the end of the frame on no
step goes back into a frame, so the invariant has the line at 1. -/
theorem spacingGuarantee : Obligations.SpacingGuarantee := by
  intro s s1 u w c k hi hw hstep hnr hnf hrun hacc
  have hspace : frameCycles s.params + pauseCycles s.params s.ibd ≤ k := by
    by_contra hlt
    obtain ⟨v, hrun', htimers, -, -, -, hleft⟩ := cycle_of_startingByte hi hw hstep (by omega) hnr
    rw [hrun] at hrun'
    cases hrun'
    obtain ⟨-, -, hp, -⟩ := (edge_eq_accept_iff u c).1 hacc
    have hzero := (phase_eq_idle_iff htimers).1 hp
    omega
  refine ⟨hspace, fun j hj hjk => ?_⟩
  obtain ⟨hl, -⟩ := step_of_startingByte hw hstep
  have hl1 : s1.launched = true := launched_of_step hl hstep
  obtain ⟨v, hrunv, hlv⟩ := runEdges_launched hl1 j
  have hiv : v.Inv := runEdges_keeps (fun _ _ => step_inv) (step_inv hi hstep) hrunv
  have hend : ∀ u, runEdges (frameCycles s.params) s1 = .next u → u.phase ≠ .frame := by
    intro u hu
    obtain ⟨u', hu', htimers, -, hpibd, hparams, hleft⟩ := cycle_of_startingByte hi hw hstep
      (Nat.le_add_right _ _) (alongRun_le _ k _ _ (hj.trans hjk) hnr)
    rw [hu] at hu'
    cases hu'
    rw [ne_eq, phase_eq_frame_iff htimers, hparams, hpibd]
    omega
  have hpv : v.phase ≠ .frame :=
    runEdges_keeps_along (fun u u' hn hp => step_phase_ne_frame (by simpa using hn) hp) hj
      (alongRun_le _ k _ _ hjk hnf) hend hrunv
  exact ⟨v, hrunv, txq_of_not_frame (hiv.2 hlv).2 hpv⟩

/-- Settles O11: no step writes a parameter. -/
theorem parametersNeverChange : Obligations.ParametersNeverChange := fun _ s _ =>
  runEdges_keeps (R := fun u => u.params = s.params) (fun _ _ hu h => (step_params h).trans hu) rfl

/-- Settles O23: every launched step appends to the log at most, and leaves the machine launched. -/
theorem wireLogOnlyGrows : Obligations.WireLogOnlyGrows := by
  intro n s t hl h
  refine (runEdges_keeps (R := fun u => u.launched = true ∧ s.log <+: u.log) ?_ ⟨hl, List.prefix_rfl⟩ h).2
  rintro u v ⟨hlu, hlog⟩ hstep
  exact ⟨launched_of_step hlu hstep, hlog.trans (step_log_prefix hlu hstep)⟩

/-- Settles O24: only a sampled reset clears ERR. -/
theorem errStaysUntilReset : Obligations.ErrStaysUntilReset := by
  intro n s t hn h herr
  refine runEdges_keeps_along (R := fun u => u.err = true) (fun u v hr hu hstep => ?_) n.zero_le hn ?_ h
  · rw [step_err hstep, hr, hu]
    simp
  · rintro u ⟨⟩
    exact herr

/-- Settles O29: a frame begins only where a byte starts, and an idle machine without offers is at the end of its
run. -/
theorem noFrameWithoutCommand : Obligations.NoFrameWithoutCommand := by
  refine ⟨fun s t h hp hframe => ?_, fun n s hl hp hr hv hh => ?_⟩
  · cases hw : s.startingByte with
    | none => exact absurd hframe (step_phase_ne_frame hw hp h)
    | some w => exact ⟨w, rfl⟩
  · have hend : s.AtEnd := ⟨hl, by simp [runEnded_iff, cmdReady_iff, hr, hp, hv, hh], by simp [hh]⟩
    obtain ⟨t, hrun, hend', htxn, htxq⟩ := runEdges_of_atEnd hend n
    obtain ⟨hready, -⟩ := (runEnded_iff t).1 hend'.ended
    exact ⟨t, hrun, ((cmdReady_iff t).1 hready).2, htxq, htxn, hready⟩

/-- Settles O34: at the end of a run an edge moves the host's drives alone, and those offer nothing. -/
theorem runEndIsFinal : Obligations.RunEndIsFinal := by
  intro n s hl hend hr
  obtain ⟨t, hrun, hend', htxn, -⟩ := runEdges_of_atEnd ⟨hl, hend, hr⟩ n
  exact ⟨t, hrun, htxn, hend'.ended⟩

end Sys2Proof.Machine

/-! SUPPORT. Held offers (41_transmitter.md R74, R75, 70_reset_and_hazards.md R130, R135): an offer that waits for
`cmd_ready`, and a stream of words offered one after the other, with the cycles that each takes. -/

namespace Sys2Proof.Machine

/-! ### Ports that stay as they are while a byte is in progress -/

/-- The ports hold a drive that stays until `cmd_ready` is 1, or the quiet drive after the last (log 3, log 4). -/
def State.Held (s : State) : Prop :=
  s.port.rst = false ∧ (s.port.hold = true ∨ s.host = [] ∧ s.port = ⟨false, false, s.port.cmdData, false⟩)

theorem takeInputs_of_held {s : State} (h : s.Held) (hn : s.cmdReady = false) : s.takeInputs = s := by
  obtain ⟨hr, hhold | ⟨hhost, hport⟩⟩ := h
  · simp [State.takeInputs, hhold, hr, hn]
  · rcases takeInputs_cases s with ⟨-, e⟩ | ⟨-, e⟩
    · exact e
    · rw [e, hhost, List.headD_nil, ← hport, List.tail_nil, ← hhost]

/-- A held drive stays on the ports for all the cycles that are left of the byte in progress. -/
theorem runEdges_of_held {s : State} (hi : s.Inv) (hl : s.launched = true) (hh : s.Held) {t : Nat}
    (ht : t ≤ s.cyclesLeft) :
    ∃ u, runEdges t s = .next u ∧ u.Inv ∧ s.SameByte u ∧ u.port = s.port ∧ u.host = s.host ∧
      u.cyclesLeft + t = s.cyclesLeft := by
  induction t with
  | zero => exact ⟨s, rfl, hi, ⟨rfl, rfl, rfl, rfl⟩, rfl, rfl, rfl⟩
  | succ t ih =>
    obtain ⟨u, hrun, hiu, hsame, hport, hhost, hleft⟩ := ih (by omega)
    have hlu : u.launched = true := hsame.launched.trans hl
    have hhu : u.Held := by rwa [State.Held, hport, hhost]
    obtain ⟨v, hstep, hiv, hsame', hleft'⟩ := step_cyclesLeft hiu hlu hhu.1 (by omega)
    have hbusy : u.phase ≠ .idle := fun hp => by
      have hzero := cyclesLeft_of_idle hp
      omega
    have hv : v = u.runEdge := by
      rw [step_busy u hlu hhu.1 hbusy, takeInputs_of_held hhu (by simp [State.cmdReady, hbusy])] at hstep
      cases hstep
      rfl
    refine ⟨v, runEdges_succ t s u v hrun hstep, hiv, hsame.trans hsame', ?_, ?_, by omega⟩
    · rw [hv, runEdge_port, hport]
    · rw [hv, runEdge_host, hhost]

/-- `cmd_ready` is 0 in the cycles of a byte, and 1 after them unless `rst` is 1 (41_transmitter.md R84). -/
theorem cmdReady_eq {s : State} (hw : s.timersWf = true) :
    s.cmdReady = (!s.port.rst && decide (s.cyclesLeft = 0)) := by
  simp [State.cmdReady, phase_eq_idle_iff hw]

/-- A byte has at most its frame and its pause left (41_transmitter.md R83, R84). -/
theorem cyclesLeft_le {s : State} (hw : s.timersWf = true) :
    s.cyclesLeft ≤ frameCycles s.params + pauseCycles s.params s.pibd := by
  cases hp : s.phase with
  | idle => simp [cyclesLeft_of_idle hp]
  | frame =>
    obtain ⟨w, -, -, -, hbcnt, -⟩ := (timersWf_of_frame hp).1 hw
    have hbits : (9 - s.bit) * s.params.div ≤ 9 * s.params.div := Nat.mul_le_mul_right _ (Nat.sub_le _ _)
    rw [cyclesLeft_of_frame hp, frameCycles]
    omega
  | pause =>
    obtain ⟨w, -, -, -, -, -, hP⟩ := (timersWf_of_pause hp).1 hw
    rw [cyclesLeft_of_pause hp]
    omega

/-! ### The accepting edge in cycles -/

/-- After its accepting edge an instruction has the cycles of R135 left. -/
theorem exec_cyclesLeft {i : Instr} {s t : State} (hi : s.Inv) (hp : s.phase = .idle) (h : exec i s = .next t) :
    t.cyclesLeft = cyclesUntilReady s.params s.ibd i := by
  cases i <;> cases h
  case send | sendraw => exact startFrame_cyclesLeft _ hi.div_pos
  case setibd | rsvd => exact cyclesLeft_of_idle hp

theorem exec_ibd {i : Instr} {s t : State} (h : exec i s = .next t) : t.ibd = ibdAfter s.ibd i := by
  cases i <;> cases h <;> rfl

theorem exec_inputs {i : Instr} {s t : State} (h : exec i s = .next t) : t.port = s.port ∧ t.host = s.host := by
  cases i <;> cases h <;> exact ⟨rfl, rfl⟩

/-! ### A stream of held offers -/

/-- The host offers the words `cs` one after the other, each held until it is accepted, and then nothing. -/
def State.Offers (cs : List Word) (s : State) : Prop :=
  s.port = (cs.map Drive.offer).headD ⟨false, false, s.port.cmdData, false⟩ ∧ s.host = (cs.map Drive.offer).tail

theorem State.Offers.held {cs : List Word} {s : State} (h : s.Offers cs) : s.Held := by
  obtain ⟨hport, hhost⟩ := h
  cases cs with
  | nil => exact ⟨by rw [hport]; rfl, .inr ⟨hhost, hport⟩⟩
  | cons c cs => exact ⟨by rw [hport]; rfl, .inl (by rw [hport]; rfl)⟩

/-- The offers that are left are commands that are left (70_reset_and_hazards.md R137). -/
theorem commandsLeft_of_offers {cs : List Word} {s : State} (h : s.Offers cs) : s.commandsLeft = !cs.isEmpty := by
  obtain ⟨hport, hhost⟩ := h
  cases cs with
  | nil => rw [State.commandsLeft, hport, hhost]; rfl
  | cons c cs => rw [State.commandsLeft, hport]; rfl

/-- A launched machine at rest, with the stream `cs` on offer. -/
structure State.Ready (cs : List Word) (s : State) : Prop where
  inv : s.Inv
  launched : s.launched = true
  idle : s.phase = .idle
  offers : s.Offers cs

/-- The edge that accepts the first word of a stream. -/
theorem State.Ready.accepts_word {c : Word} {cs : List Word} {s : State} (h : s.Ready (c :: cs)) :
    ∃ t, step s = .next t ∧ t.Inv ∧ t.launched = true ∧ t.Offers cs ∧ t.params = s.params ∧
      t.ibd = ibdAfter s.ibd (decode c) ∧ t.txn = s.txn.step c ∧
      t.cyclesLeft = cyclesUntilReady s.params s.ibd (decode c) := by
  obtain ⟨hport, hhost⟩ := h.offers
  have hport : s.port = .offer c := hport
  have hhost : s.host = cs.map .offer := hhost
  have hready : s.cmdReady = true := (cmdReady_iff s).2 ⟨by rw [hport]; rfl, h.idle⟩
  have hacc : s.edge = .accept c := (edge_eq_accept_iff s c).2 (by simp [hport, h.launched, h.idle, Drive.offer])
  obtain ⟨t, hexec⟩ := exec_next (decode c) s.takeInputs
  have hstep : step s = .next t := (step_of_edge_accept hacc).trans hexec
  have hp : s.takeInputs.phase = .idle := by simpa using h.idle
  obtain ⟨htport, hthost⟩ := exec_inputs hexec
  have hoffers : t.Offers cs := by
    rw [State.Offers, htport, hthost, takeInputs_of_ready hready, hhost]
    cases cs <;> exact ⟨rfl, rfl⟩
  exact ⟨t, hstep, step_inv h.inv hstep, launched_of_step h.launched hstep, hoffers, step_params hstep,
    by simpa using exec_ibd hexec, by simpa using exec_decode_txn hexec,
    by simpa using exec_cyclesLeft (takeInputs_inv h.inv) hp hexec⟩

/-- The first word of a stream is carried out in the cycles of R135, after which the rest is on offer. -/
theorem State.Ready.completes_word {c : Word} {cs : List Word} {s : State} (h : s.Ready (c :: cs)) :
    ∃ u, runEdges (1 + cyclesUntilReady s.params s.ibd (decode c)) s = .next u ∧ u.Ready cs ∧ u.params = s.params ∧
      u.ibd = ibdAfter s.ibd (decode c) ∧ u.txn = s.txn.step c := by
  obtain ⟨t, hstep, hi, hl, hoffers, hparams, hibd, htxn, hleft⟩ := h.accepts_word
  obtain ⟨u, hrun, hiu, hsame, hport, hhost, hleft'⟩ := runEdges_of_held hi hl hoffers.held hleft.ge
  have hlu : u.launched = true := hsame.launched.trans hl
  have hp : u.phase = .idle := (phase_eq_idle_iff (hiu.2 hlu).2).2 (by omega)
  refine ⟨u, ?_, ⟨hiu, hlu, hp, by rwa [State.Offers, hport, hhost]⟩, hsame.params.trans hparams, ?_,
    hsame.txn.trans htxn⟩
  · rw [Nat.add_comm, runEdges_of_step hstep, hrun]
  · have hibd' : u.ibd = t.ibd := congrArg TxnState.ibd hsame.txn
    exact hibd'.trans hibd

/-- Until then the run goes on and has not ended. -/
theorem State.Ready.word_not_ended {c : Word} {cs : List Word} {s : State} (h : s.Ready (c :: cs)) {k : Nat}
    (hk : k < 1 + cyclesUntilReady s.params s.ibd (decode c)) : ∃ u, runEdges k s = .next u ∧ u.runEnded = false := by
  cases k with
  | zero => exact ⟨s, rfl, by simp [State.runEnded, commandsLeft_of_offers h.offers]⟩
  | succ k =>
    obtain ⟨t, hstep, hi, hl, hoffers, -, -, -, hleft⟩ := h.accepts_word
    obtain ⟨u, hrun, hiu, hsame, -, -, hleft'⟩ := runEdges_of_held hi hl hoffers.held (t := k) (by omega)
    have hbusy : u.cyclesLeft ≠ 0 := by omega
    refine ⟨u, by rw [runEdges_of_step hstep, hrun], ?_⟩
    simp [State.runEnded, cmdReady_eq (hiu.2 (hsame.launched.trans hl)).2, hbusy]

/-- A whole stream, word by word. -/
theorem State.Ready.completes {cs : List Word} {s : State} (h : s.Ready cs) :
    ∃ t, runEdges (streamCycles s.params s.ibd cs) s = .next t ∧ t.Ready [] ∧ t.txn = s.txn.run cs := by
  induction cs generalizing s with
  | nil => exact ⟨s, rfl, h, rfl⟩
  | cons c cs ih =>
    obtain ⟨u, hrun, hu, hparams, hibd, htxn⟩ := h.completes_word
    obtain ⟨t, hrun', ht, htxn'⟩ := ih hu
    rw [hparams, hibd] at hrun'
    exact ⟨t, by rw [streamCycles, runEdges_add_of_next hrun, hrun'], ht, by rw [htxn', htxn]; rfl⟩

theorem State.Ready.ends_no_sooner {cs : List Word} {s : State} (h : s.Ready cs) {k : Nat}
    (hk : k < streamCycles s.params s.ibd cs) : ∃ u, runEdges k s = .next u ∧ u.runEnded = false := by
  induction cs generalizing s k with
  | nil => simp [streamCycles] at hk
  | cons c cs ih =>
    rcases Nat.lt_or_ge k (1 + cyclesUntilReady s.params s.ibd (decode c)) with hlt | hge
    · exact h.word_not_ended hlt
    · obtain ⟨u, hrun, hu, hparams, hibd, -⟩ := h.completes_word
      obtain ⟨m, rfl⟩ := Nat.exists_eq_add_of_le hge
      rw [streamCycles] at hk
      obtain ⟨v, hrun', hend⟩ := ih hu (k := m) (by rw [hparams, hibd]; omega)
      exact ⟨v, by rw [runEdges_add_of_next hrun, hrun'], hend⟩

/-! ### The obligations -/

/-- Settles O32: by induction on the stream, each word takes its cycles and leaves the rest on offer. -/
theorem offeredStreamCompletes : Obligations.OfferedStreamCompletes := by
  intro c cs s hi hl hp hport hhost
  have h : s.Ready (c :: cs) := ⟨hi, hl, hp, hport, hhost⟩
  obtain ⟨t, hrun, ht, htxn⟩ := h.completes
  refine ⟨t, hrun, htxn, ?_, ht.offers.2, ht.inv⟩
  simp [State.runEnded, State.cmdReady, ht.idle, ht.offers.held.1, commandsLeft_of_offers ht.offers]

/-- Settles O33: before a word's cycles have passed it is still on offer, or its byte is in progress. -/
theorem offeredStreamEndsNoSooner : Obligations.OfferedStreamEndsNoSooner := by
  intro c cs s hi hl hp hport hhost k hk
  have h : s.Ready (c :: cs) := ⟨hi, hl, hp, hport, hhost⟩
  exact h.ends_no_sooner hk

/-- Settles O35: the offer is accepted when no cycle is left of the byte that it finds in progress. -/
theorem heldOfferWaitsForReady : Obligations.HeldOfferWaitsForReady := by
  intro i s hi hl hport
  have hheld : s.Held := by rw [State.Held, hport]; exact ⟨rfl, .inl rfl⟩
  have hw : s.timersWf = true := (hi.2 hl).2
  obtain ⟨u, hrun, hiu, hsame, hportu, -, hleft⟩ := runEdges_of_held hi hl hheld le_rfl
  have hlu : u.launched = true := hsame.launched.trans hl
  have hp : u.phase = .idle := (phase_eq_idle_iff (hiu.2 hlu).2).2 (by omega)
  rw [hport] at hportu
  refine ⟨s.cyclesLeft, u, hrun, cyclesLeft_le hw, fun j hj => ?_,
    (cmdReady_iff u).2 ⟨by rw [hportu]; rfl, hp⟩, hsame.txn, ?_⟩
  · obtain ⟨v, hrunv, hiv, hsamev, hportv, -, hleftv⟩ := runEdges_of_held hi hl hheld hj.le
    have hbusy : v.cyclesLeft ≠ 0 := by omega
    refine ⟨v, hrunv, ?_, hportv, hsamev.txn⟩
    simp [cmdReady_eq (hiv.2 (hsamev.launched.trans hl)).2, hbusy]
  · rw [step_of_accept (by rw [hportu]; rfl) hlu hp (by rw [hportu]; rfl), hportu]
    exact congrArg (exec · u.takeInputs) (decode_encode i)

/-- Settles O12: the word is accepted, and with `cmd_ready` = 1 the next drive comes on the ports. -/
theorem stepRunsAcceptedCommand : Obligations.StepRunsAcceptedCommand := by
  intro s hl hv hready
  obtain ⟨hr, hp⟩ := (cmdReady_iff s).1 hready
  have hstep : step s = exec (decode s.port.cmdData) s.takeInputs := step_of_accept hr hl hp hv
  exact ⟨hstep, fun i hi => by rw [hstep, hi, decode_encode], takeInputs_of_ready hready⟩

end Sys2Proof.Machine

/-! SUPPORT. The reference host's tick (45_host_sequence.md R92 to R98): the pods that it reads, and when; the commands
of SENDPOD; and the length of a tick of the four pods (70_reset_and_hazards.md R136). -/

namespace Sys2Proof.Machine

/-! ### SENDPOD -/

theorem and_valueMask (n : Nat) : n &&& Config.valueMask = n % 256 := Nat.and_two_pow_sub_one_eq_mod n 8

/-- The masked channel values in arithmetic form (30_encoding.md R53, 45_host_sequence.md R94). -/
theorem sendPod_eq (p : BitVec 2) (bright color : Nat) : sendPod p bright color =
    [.send p .intensity (BitVec.ofNat 8 (bright % 256)),
     .send p .red (BitVec.ofNat 8 (color / 65536 % 256)),
     .send p .green (BitVec.ofNat 8 (color / 256 % 256)),
     .send p .blue (BitVec.ofNat 8 (color % 256))] := by
  simp only [sendPod, List.map_cons, List.map_nil, channelValue, channelByteOf, and_valueMask,
    Nat.shiftRight_eq_div_pow]

@[simp] theorem length_sendPod (p : BitVec 2) (bright color : Nat) : (sendPod p bright color).length = 4 := rfl

@[simp] theorem length_tickCommands (r : List Pod) : (tickCommands r).length = 4 * r.length := by
  simp [tickCommands, List.length_flatMap, Nat.mul_comm]

/-! ### What a read of a pod sees -/

theorem readDuring_iff (writing : List PodWrite) (p q : Pod) : Pod.readDuring writing p q = true ↔
    q.index = p.index ∧ (q.brightness = p.brightness ∨ .brightness p.index q.brightness ∈ writing) ∧
      (q.color = p.color ∨ .color p.index q.color ∈ writing) := by
  simp [Pod.readDuring, and_assoc]

/-- A pair of values that a read is allowed to see is what it sees when asked to. -/
theorem RefHost.readPod_of_readDuring {h : RefHost} {p q : Pod} (hq : Pod.readDuring h.writing p q = true) :
    h.readPod p (some (q.brightness, q.color)) = q := by
  obtain ⟨hidx, -⟩ := (readDuring_iff _ _ _).1 hq
  obtain ⟨i, b, c⟩ := q
  cases hidx
  exact if_pos hq

/-- Every read is allowed (45_host_sequence.md R97). -/
theorem RefHost.readDuring_readPod (h : RefHost) (p : Pod) (seen : Option (Nat × Nat)) :
    Pod.readDuring h.writing p (h.readPod p seen) = true := by
  rcases h.readPod_cases p seen with e | ⟨b, c, -, e, hr⟩ <;> rw [e]
  · exact (readDuring_iff _ _ _).2 ⟨rfl, .inl rfl, .inl rfl⟩
  · exact hr

/-! ### The reads of a tick -/

/-- The registry's members and their order stay, so its length does (45_host_sequence.md R92). -/
@[simp] theorem RefHost.events_length (h : RefHost) (es : List HostEvent) :
    (h.events es).registry.length = h.registry.length := by
  rw [← List.length_map (f := Pod.index), h.events_indices, List.length_map]

theorem RefHost.sample_cons (h : RefHost) {k : Nat} (ks : List Nat) (gs : List GroupInput) {p : Pod}
    (hp : (h.events (gs.headD {}).events).registry[k]? = some p) :
    h.sample (k :: ks) gs =
      (((h.events (gs.headD {}).events).sample ks gs.tail).1,
        (h.events (gs.headD {}).events).readPod p (gs.headD {}).seen ::
          ((h.events (gs.headD {}).events).sample ks gs.tail).2) := by
  rw [RefHost.sample, hp]
  rfl

/-- The events before a group are those of the groups up to it. -/
theorem flatMap_events_take_succ (gs : List GroupInput) (j : Nat) :
    (gs.take (j + 1)).flatMap GroupInput.events =
      (gs.headD {}).events ++ (gs.tail.take j).flatMap GroupInput.events := by
  cases gs with
  | nil => simp
  | cons g gs => rfl

/-- The read at place `j` is made by the host as it stands after the events up to group `j` (45_host_sequence.md
R97). -/
theorem RefHost.sample_getElem? {ks : List Nat} {h : RefHost} {gs : List GroupInput}
    (hks : ∀ k ∈ ks, k < h.registry.length) {j k : Nat} (hj : ks[j]? = some k) {g : RefHost}
    (hg : g = h.events ((gs.take (j + 1)).flatMap GroupInput.events)) :
    ∃ p, g.registry[k]? = some p ∧ (h.sample ks gs).2[j]? = some (g.readPod p (gs.getD j {}).seen) := by
  induction ks generalizing h gs j with
  | nil => simp at hj
  | cons k' ks ih =>
    obtain ⟨hk', hks⟩ := List.forall_mem_cons.1 hks
    rw [flatMap_events_take_succ, h.events_append] at hg
    generalize hh1 : h.events (gs.headD {}).events = h1 at hg
    have hlen : h1.registry.length = h.registry.length := by rw [← hh1, events_length]
    have hp : h1.registry[k']? = some h1.registry[k'] := List.getElem?_eq_getElem (hlen ▸ hk')
    rw [h.sample_cons ks gs (by rw [hh1]; exact hp), hh1]
    cases j with
    | zero =>
      cases hj
      cases (hg : g = h1)
      refine ⟨_, hp, ?_⟩
      cases gs <;> rfl
    | succ j =>
      obtain ⟨p, hget, hread⟩ := ih (h := h1) (gs := gs.tail) (by rwa [hlen]) hj hg
      refine ⟨p, hget, ?_⟩
      rw [List.getElem?_cons_succ, hread]
      cases gs <;> rfl

/-- The pods read have the indices of the registry's positions (45_host_sequence.md R92, R95). -/
theorem RefHost.sample_indices (h : RefHost) (ks : List Nat) (gs : List GroupInput) :
    (h.sample ks gs).2.map Pod.index = ks.filterMap ((h.registry.map Pod.index)[·]?) := by
  induction ks generalizing h gs with
  | nil => rfl
  | cons k ks ih =>
    rw [List.filterMap_cons, ← h.events_indices (gs.headD {}).events, List.getElem?_map]
    cases hp : (h.events (gs.headD {}).events).registry[k]? with
    | none =>
      simp only [RefHost.sample, hp]
      exact ih _ _
    | some p =>
      rw [h.sample_cons ks gs hp, List.map_cons, ih, readPod_index]
      rfl

/-- A list read position by position is the list. -/
theorem filterMap_range_getElem? {α : Type} (l : List α) : (List.range l.length).filterMap (l[·]?) = l := by
  induction l with
  | nil => rfl
  | cons a l ih =>
    rw [List.length_cons, List.range_succ_eq_map]
    simp [List.filterMap_map, ih]

/-- Without events, and with no other value to see, the reads are those of the stored pods. -/
theorem RefHost.sample_stored {h : RefHost} (ks : List Nat) {gs : List GroupInput}
    (hgs : ∀ g ∈ gs, g.events = [] ∧ (h.writing = [] ∨ g.seen = none)) :
    h.sample ks gs = (h, ks.filterMap (h.registry[·]?)) := by
  induction ks generalizing gs with
  | nil => rfl
  | cons k ks ih =>
    have hhead : (gs.headD {}).events = [] ∧ (h.writing = [] ∨ (gs.headD {}).seen = none) := by
      cases gs with
      | nil => exact ⟨rfl, .inr rfl⟩
      | cons g gs => exact hgs g (by simp)
    have htail := ih (gs := gs.tail) fun g hg => hgs g (List.mem_of_mem_tail hg)
    have hread (p : Pod) : h.readPod p (gs.headD {}).seen = p := by
      rcases hhead.2 with hw | hs
      · exact h.readPod_of_no_write hw p _
      · rw [hs, readPod_none]
    simp only [RefHost.sample, hhead.1, events_nil, htail, hread, List.filterMap_cons]
    cases h.registry[k]? <;> rfl

/-- Events ahead of the first read are events ahead of the tick's reads. -/
theorem RefHost.sample_events_first (h : RefHost) (ks : List Nat) (es : List HostEvent) (seen : Option (Nat × Nat))
    (gs : List GroupInput) :
    (h.sample ks ({ events := es, seen := seen } :: gs)).2 = ((h.events es).sample ks ({ seen := seen } :: gs)).2 := by
  cases ks <;> rfl

/-! ### Writes that are whole at once -/

@[simp] theorem RefHost.events_store_writing (h : RefHost) (ws : List PodWrite) :
    (h.events (ws.map .store)).writing = h.writing := by
  induction ws generalizing h with
  | nil => rfl
  | cons w ws ih => exact (ih (h.store w)).trans (h.store_writing w)

/-- Writes reach every pod of the registry one after the other (45_host_sequence.md R91, R93, R94). -/
@[simp] theorem RefHost.events_store_registry (h : RefHost) (ws : List PodWrite) :
    (h.events (ws.map .store)).registry = ws.foldl (fun r w => r.map (Pod.store w)) h.registry := by
  induction ws generalizing h with
  | nil => rfl
  | cons w ws ih => exact ih (h.store w)

/-! ### The tick -/

theorem RefHost.tick_of_running {h : RefHost} (hs : h.scheduler = .running) (t : TickInput) :
    h.tick t = ((h.sample (List.range h.registry.length) t.groups).1.events t.atEnd,
      withIbds (tickCommands (h.sample (List.range h.registry.length) t.groups).2) t.gaps t.ibds) := by
  rw [RefHost.tick, hs]

theorem RefHost.tick_of_idle {h : RefHost} (hs : h.scheduler = .idle) (t : TickInput) : h.tick t = (h, []) := by
  rw [RefHost.tick, hs]

/-- A tick in which nothing happens before its end sends the stored registry (45_host_sequence.md R95). -/
theorem RefHost.tick_atEnd {h : RefHost} (hs : h.scheduler = .running) (es : List HostEvent) :
    h.tick { atEnd := es } = (h.events es, (tickCommands h.registry).map Offer.now) := by
  rw [tick_of_running hs, sample_stored _ (by simp), filterMap_range_getElem?, withIbds_nil]

/-! ### The length of a tick -/

/-- Sending commands offered without a gap take a frame, a pause and an accepting edge each
(70_reset_and_hazards.md R135). -/
theorem streamCycles_of_sends {is : List Instr} (hs : ∀ i ∈ is, (sentByte i).isSome) (p : Params) (ibd : Delay) :
    streamCycles p ibd (is.map encode) = is.length * (1 + (frameCycles p + pauseCycles p ibd)) := by
  induction is with
  | nil => simp [streamCycles]
  | cons i is ih =>
    obtain ⟨hi, hs⟩ := List.forall_mem_cons.1 hs
    have hcost : cyclesUntilReady p ibd i = frameCycles p + pauseCycles p ibd ∧ ibdAfter ibd i = ibd := by
      cases i with
      | send | sendraw => exact ⟨rfl, rfl⟩
      | setibd | rsvd => cases hi
    rw [List.map_cons, streamCycles, decode_encode, hcost.1, hcost.2, ih hs, List.length_cons, Nat.succ_mul,
      Nat.add_comm]

theorem length_of_registry_wf {r : List Pod} (hr : Registry.wf r = true) : r.length = 4 := by
  have hidx : r.map Pod.index = [0#2, 1#2, 2#2, 3#2] := of_decide_eq_true hr
  rw [← List.length_map (f := Pod.index), hidx]
  rfl

/-- A tick of the four pods is 16 SENDs (45_host_sequence.md R95, R104). -/
theorem streamCycles_tick {r : List Pod} (hr : Registry.wf r = true) (p : Params) (ibd : Delay) :
    streamCycles p ibd ((tickCommands r).map encode) = 16 * (1 + (frameCycles p + pauseCycles p ibd)) := by
  rw [streamCycles_of_sends (tickCommands_sends r), length_tickCommands, length_of_registry_wf hr]

/-- The same in seconds, at any clock (70_reset_and_hazards.md R136). -/
theorem tickMinSeconds_eq {r : List Pod} (hr : Registry.wf r = true) (p : Params) (ibd : Delay) :
    (streamCycles p ibd ((tickCommands r).map encode) : Rat) / (p.clkHz : Rat) = tickMinSeconds p ibd := by
  rw [streamCycles_tick hr, tickMinSeconds, frameSeconds, unitSeconds, pauseCycles]
  push_cast
  ring

theorem frameSeconds_eq (p : Params) : frameSeconds p = 10 * bitSeconds p := by
  rw [frameSeconds, frameCycles, bitSeconds]
  push_cast
  ring

/-- One bit at 9600 baud exactly (70_reset_and_hazards.md R136). -/
theorem bitSeconds_eq {p : Params} (hp : p.wf = true) (hclk : p.clkHz = 9600 * p.div) : bitSeconds p = 1 / 9600 := by
  have hdiv : 1 ≤ p.div := of_decide_eq_true (Bool.and_eq_true _ _ ▸ hp).1
  have hne : (p.div : Rat) ≠ 0 := by positivity
  rw [bitSeconds, hclk]
  push_cast
  field_simp

/-! ### The obligations -/

/-- Settles O54: SETIBDs send nothing, and each pod is read at its own group. -/
theorem tickSendsPodsInOrder : Obligations.TickSendsPodsInOrder := by
  rintro h t ps hs rfl
  obtain ⟨hidx, hsched⟩ := RefHost.sample_keeps (List.range h.registry.length) h t.groups
  rw [RefHost.tick_of_running hs]
  refine ⟨withIbds_sends _ _ _ (tickCommands_sends _), ?_, fun k g hk hg => ?_, ?_, ?_⟩
  · rw [RefHost.sample_indices, ← List.length_map (f := Pod.index), filterMap_range_getElem?]
  · exact RefHost.sample_getElem? (fun _ => List.mem_range.1) (List.getElem?_range hk) hg
  · rw [RefHost.events_indices, hidx]
  · rw [RefHost.events_scheduler, hsched, hs]

/-- Settles O55: reads without an event or a write in progress see what is stored, and what is stored are the writes in
their order. -/
theorem tickReflectsLatestValues : Obligations.TickReflectsLatestValues := by
  refine ⟨fun h ws seen seens hs hw => ?_, fun h ws hs => ?_, fun h hs => RefHost.tick_atEnd hs [],
    fun h t hs => by rw [RefHost.tick_of_idle hs]⟩
  · have hstored : ∀ g ∈ ({ seen := seen } :: seens.map fun x => { seen := x } : List GroupInput),
        g.events = [] ∧ ((h.events (ws.map .store)).writing = [] ∨ g.seen = none) := by
      simp [hw]
    rw [RefHost.tick_of_running hs, RefHost.sample_events_first, RefHost.sample_stored _ hstored,
      ← h.events_length (ws.map .store), filterMap_range_getElem?, RefHost.events_store_registry, withIbds_nil]
  · rw [RefHost.tick_atEnd hs]
    have hs' : (h.events (ws.map .store)).scheduler = .running := by rw [RefHost.events_scheduler, hs]
    exact (congrArg Prod.snd (RefHost.tick_atEnd hs' [])).trans (by rw [RefHost.events_store_registry])

/-- Settles O50: with `P_CLK_HZ = 9600 * P_DIV` a bit takes 1/9600 s, and every figure is a number of bits, pauses and
idle cycles. -/
theorem wallClockFigures : Obligations.WallClockFigures := by
  intro p ibd r hp hclk hr
  have hframe : frameSeconds p = 10 / 9600 := by
    rw [frameSeconds_eq, bitSeconds_eq hp hclk]
    norm_num
  refine ⟨bitSeconds_eq hp hclk, hframe, rfl, ?_, tickMinSeconds_eq hr p ibd⟩
  rw [tickMinSeconds, hframe]
  ring

/-- Settles O52: the mask and the shifts as remainders and quotients. -/
theorem sendpodExpansion : Obligations.SendpodExpansion := sendPod_eq

/-- Settles O53: every read is allowed, and an allowed pair of values is seen when the read is asked to see it. -/
theorem podReadIsStoredOrTorn : Obligations.PodReadIsStoredOrTorn := by
  intro h p q
  rw [← readDuring_iff]
  constructor
  · rintro ⟨seen, rfl⟩
    exact h.readDuring_readPod p seen
  · intro hq
    exact ⟨_, RefHost.readPod_of_readDuring hq⟩

end Sys2Proof.Machine

/-! SUPPORT. Reset and the four commands, each as an equation of its effect (41_transmitter.md R76 to R79,
70_reset_and_hazards.md R120): the values a reset leaves, its priority, and what each command writes. -/

namespace Sys2Proof.Machine

/-! ### Reset -/

/-- The first reset edge begins a run (10_state.md R30). -/
theorem resetEdge_txn_of_unlaunched {s : State} (hl : s.launched = false) : s.resetEdge.txn = TxnState.initial := by
  rcases logAfterReset_cases s with ⟨-, e⟩ | ⟨hl', -⟩ | ⟨hl', -⟩
  · simp [State.txn, TxnState.initial, e, Config.ibdReset]
  · simp [hl] at hl'
  · simp [hl] at hl'

theorem resetEdge_withInputs (p : Drive) (ds : List Drive) (s : State) :
    (s.withInputs p ds).resetEdge = s.resetEdge.withInputs p ds := rfl

theorem withInputs_withInputs (p p' : Drive) (ds ds' : List Drive) (s : State) :
    (s.withInputs p ds).withInputs p' ds' = s.withInputs p' ds' := rfl

/-- A reset edge reads no command input (60_exceptions.md R113). -/
theorem step_withInputs_of_rst {s : State} {p : Drive} (ds : List Drive) (hp : p.rst = true) :
    ∃ p' ds', step (s.withInputs p ds) = .next (s.resetEdge.withInputs p' ds') :=
  ⟨_, _, by rw [step_of_rst hp, takeInputs_eq_withInputs, withInputs_withInputs, resetEdge_withInputs]⟩

/-! ### The commands -/

/-- A sending command's next state in full (41_transmitter.md R80, R82, R83). -/
theorem startFrame_eq (w : Byte) (s : State) : s.startFrame w = { s with
    log := s.log ++ [.byte w s.ibd]
    phase := .frame
    frm := 1#1 ++ w ++ 0#1
    bit := 0
    bcnt := s.params.div - 1
    pibd := s.ibd
    txq := false } := by
  rw [← startFrame_txq w s]
  rfl

/-! ### The obligations -/

/-- Settles O1: the values written in `State.reset`. -/
theorem resetLeavesStatedValues : Obligations.ResetLeavesStatedValues :=
  ⟨rfl, rfl, rfl, rfl, rfl, rfl, rfl, rfl, rfl, rfl, rfl, rfl⟩

/-- Settles O6: the reset edge of an unlaunched state empties the log and loads the reset values. -/
theorem firstResetStartsRun : Obligations.FirstResetStartsRun := fun s hl hr =>
  ⟨_, step_of_rst hr, resetEdge_txn_of_unlaunched (by rw [takeInputs_launched, hl]), resetEdge_phase _,
    resetEdge_cmdReady _⟩

/-- Settles O7: a reset edge reads no command input, and acceptance needs `rst` = 0 and IDLE. -/
theorem resetHasPriority : Obligations.ResetHasPriority := by
  refine ⟨fun s p hr hp => ⟨cmdReady_of_rst hr, by simp [State.edge, hr], ?_⟩, fun s c hacc => ?_⟩
  · obtain ⟨q, ds, h⟩ := step_withInputs_of_rst (s := s) s.host hr
    obtain ⟨q', ds', h'⟩ := step_withInputs_of_rst (s := s) s.host hp
    exact ⟨_, _, h, h', rfl⟩
  · obtain ⟨hr, -, hp, -⟩ := (edge_eq_accept_iff s c).1 hacc
    exact ⟨hr, hp⟩

/-- Settles O8: P_DIV and P_UNIT_CYCLES are successors, the log is empty and the transmitter at rest. -/
theorem resetStateMeetsInvariant : Obligations.ResetStateMeetsInvariant :=
  ⟨by simp [State.reset, Config.params, Params.wf], fun _ => ⟨rfl, (timersWf_of_idle rfl).2 ⟨rfl, rfl, rfl, rfl⟩⟩⟩

/-- Settles O14: SEND starts the frame of its wire byte. -/
theorem sendResult : Obligations.SendResult := fun _ _ _ s =>
  congrArg Host.Outcome.next (startFrame_eq _ s)

/-- Settles O15: SENDRAW starts the frame of its byte's wire code. -/
theorem sendrawResult : Obligations.SendrawResult := fun _ s => congrArg Host.Outcome.next (startFrame_eq _ s)

/-- Settles O16: SETIBD's next state is `setIbd`. -/
theorem setibdResult : Obligations.SetibdResult := fun _ _ => rfl

/-- Settles O17: RSVD's next state is `setErr`. -/
theorem rsvdResult : Obligations.RsvdResult := fun _ => rfl

/-- Settles O18: a sending command starts its frame, and that appends one event to the log. -/
theorem sendFrame : Obligations.SendFrame := by
  intro i w s t hw h
  rw [exec_of_sentByte hw] at h
  cases h
  refine ⟨startFrame_ibd w s, startFrame_err w s, startFrame_dcnt w s, startFrame_port w s, startFrame_host w s,
    startFrame_launched w s, startFrame_params w s, startFrame_draws w s, ?_⟩
  rw [startFrame_log, List.dropLast_concat]

/-- Settles O19: SETIBD writes IBD and RSVD writes ERR. -/
theorem registerCommandFrame : Obligations.RegisterCommandFrame := by
  intro i s t hi h
  cases i with
  | send idx ch val => cases hi
  | sendraw eb => cases hi
  | setibd n => cases h; simp
  | rsvd => cases h; simp

/-- Settles O20: both commands start the frame of one wire byte, and `wire_code` loses encoded bit 7. -/
theorem sendrawOfEncodedByteIsSend : Obligations.SendrawOfEncodedByteIsSend := by
  refine ⟨fun idx ch val s => rfl, fun eb s => ?_⟩
  have hwire : wireCode (eb ^^^ 0x80#8) = wireCode eb := ((wireCode_eq_wireCode_iff eb _).2 (.inr rfl)).symm
  exact congrArg (fun w => Host.Outcome.next (s.startFrame w)) hwire

/-- Settles O21: a register written twice with one value is written once, and each sending command appends its event
with the IBD that neither of them changes. -/
theorem registerCommandsAreIdempotent : Obligations.RegisterCommandsAreIdempotent := by
  refine ⟨fun n s t h => by cases h; rfl, fun s t h => by cases h; rfl, fun i w s t u hw h h' => ?_⟩
  rw [exec_of_sentByte hw] at h h'
  cases h
  cases h'
  rw [startFrame_log, startFrame_log, startFrame_ibd, List.append_assoc, List.singleton_append]

/-- Settles O49: `enc_out` and `wire_out` read `cmd_data` alone. -/
theorem combinationalOutputs : Obligations.CombinationalOutputs := fun s s' =>
  ⟨rfl, rfl, fun h => ⟨congrArg encOutOf h, congrArg wireOutOf h⟩, by decide, by decide⟩

end Sys2Proof.Machine
